-- ==== Sys2Proof/Word.lean ====
section
/-! DEFINITION. The value types of the unit: 256-bit words, 32-bit host words, register numbers and bitmap indices
(spec/00_scope.md R5, spec/10_state.md R13, R25). -/

namespace Sys2Proof

/-- A 256-bit vector: the content of a general register or of one bitmap word (R13, R25). -/
abbrev Word := BitVec 256

/-- A 32-bit vector: a command word, a limb of a register, the data of a host transaction (R5, R45). -/
abbrev HostWord := BitVec 32

/-- A register number, 0 to 15 (R13, R46: every value of a register field is legal). -/
abbrev Reg := Fin 16

/-- A bitmap word index: a 16-bit two's-complement integer, so every value exists (R25, R29). -/
abbrev WordIndex := BitVec 16

/-- A byte offset from `BASE`, 0x000 to 0x3FF (R29, R30). -/
abbrev Offset := BitVec 10

/-- `M = 2^256`, the modulus of the wrapping commands (40_wideint.md). -/
abbrev modulus : Nat := 2 ^ 256

end Sys2Proof
end

