-- ==== Sys2Proof/Config.lean ====
section
/-! DEFINITION. What a platform fixes and the spec leaves open: the bus address `BASE` of the unit's window
(spec/20_memory.md R37, spec/93_implementation_defined.md U11). The spec leaves no other parameter open, and no value
of an instruction's result, so there is no other free constant. -/

namespace Sys2Proof

/-- Which 1 KiB page of the bus the platform gives the unit. A free constant: no proof can know it (U11, log 8). -/
opaque Config.basePage : Nat

/-- `BASE`: a multiple of 1024, otherwise unknown (R37). -/
def Config.base : Nat := 1024 * Config.basePage

end Sys2Proof
end

