-- ==== Sys2Proof/Syntax.lean ====
section
/-! DEFINITION. The nineteen commands as syntax (spec/30_encoding.md R47, R49): one constructor per row of
spec/opcode_table.json, operands in the order of the assembler notation R56 (destinations first). -/

namespace Sys2Proof

/-- The nine entries of the constant ROM by name (spec/41_fixedpoint_const.md R74). Their values are in
`Machine/FixedPoint.lean`. -/
inductive RomEntry where
  | zero
  | one
  | q96
  | q128
  | maxU256
  | minSqrtRatio
  | maxSqrtRatio
  | minTick
  | maxTick
  deriving DecidableEq, Repr

/-- A command of the unit. -/
inductive Instr where
  /-- `LDC wd, k` (R73). -/
  | ldc (rd : Reg) (k : RomEntry)
  /-- `ADDW wd, wa, wb` (R59). -/
  | addw (rd rs1 rs2 : Reg)
  /-- `SUBW wd, wa, wb` (R60). -/
  | subw (rd rs1 rs2 : Reg)
  /-- `MULW wd, wa, wb` (R61). -/
  | mulw (rd rs1 rs2 : Reg)
  /-- `MULHW wd, wa, wb` (R62). -/
  | mulhw (rd rs1 rs2 : Reg)
  /-- `MULDIV.F wd, wa, wb, wc` (R63). -/
  | muldivF (rd rs1 rs2 rs3 : Reg)
  /-- `MULDIV.C wd, wa, wb, wc` (R64). -/
  | muldivC (rd rs1 rs2 rs3 : Reg)
  /-- `DIVRU wd, wa, wb` (R65). -/
  | divru (rd rs1 rs2 : Reg)
  /-- `MSB wd, wa` (R66). -/
  | msb (rd rs1 : Reg)
  /-- `LSB wd, wa` (R67). -/
  | lsb (rd rs1 : Reg)
  /-- `T2P wd, wa` (R78). -/
  | t2p (rd rs1 : Reg)
  /-- `P2T wd, wa` (R82). -/
  | p2t (rd rs1 : Reg)
  /-- `BMPOS wd, we, wa` (R89). -/
  | bmpos (rd rd2 rs1 : Reg)
  /-- `BMFLIP wa, wb` (R90). -/
  | bmflip (rs1 rs2 : Reg)
  /-- `BMNEXT.GT wd, we, wa, wb` (R92). -/
  | bmnextGt (rd rd2 rs1 rs2 : Reg)
  /-- `BMNEXT.LE wd, we, wa, wb` (R91). -/
  | bmnextLe (rd rd2 rs1 rs2 : Reg)
  /-- `BMLD wd, wa` (R94). -/
  | bmld (rd rs1 : Reg)
  /-- `BMST wa, wb` (R95). -/
  | bmst (rs1 rs2 : Reg)
  /-- `BMCLR` (R96). -/
  | bmclr
  deriving DecidableEq, Repr

end Sys2Proof
end

