-- ==== Sys2Proof/WellFormed.lean ====
section
/-! DEFINITION. Which terms of `Instr` are commands of the unit: the one check the types of the operands do not make
is R51 of spec/30_encoding.md. -/

namespace Sys2Proof

/-- A command with two destinations names two different registers (R51); every other term is a command. -/
def Instr.wellFormed : Instr → Bool
  | .bmpos rd rd2 _ => rd != rd2
  | .bmnextGt rd rd2 _ _ => rd != rd2
  | .bmnextLe rd rd2 _ _ => rd != rd2
  | .ldc _ _ => true
  | .addw _ _ _ => true
  | .subw _ _ _ => true
  | .mulw _ _ _ => true
  | .mulhw _ _ _ => true
  | .muldivF _ _ _ _ => true
  | .muldivC _ _ _ _ => true
  | .divru _ _ _ => true
  | .msb _ _ => true
  | .lsb _ _ => true
  | .t2p _ _ => true
  | .p2t _ _ => true
  | .bmflip _ _ => true
  | .bmld _ _ => true
  | .bmst _ _ => true
  | .bmclr => true

end Sys2Proof
end

