-- ==== Sys2Proof/Decode.lean ====
section
/-! DEFINITION. The 32-bit encoding (spec/30_encoding.md R45 to R53): the fields of a word, the opcode table as rows of
match and mask, the decoder, which rejects by name, and the encoder. -/

namespace Sys2Proof

/-- The six fixed fields of a command word (R46). -/
structure Fields where
  op : BitVec 8
  f1 : Reg
  f2 : Reg
  f3 : Reg
  f4 : Reg
  fn : BitVec 8
  deriving DecidableEq, Repr

/-- `op = c[31:24]`, `f1 = c[23:20]`, `f2 = c[19:16]`, `f3 = c[15:12]`, `f4 = c[11:8]`, `fn = c[7:0]` (R46). -/
def fieldsOf (c : HostWord) : Fields where
  op := c.extractLsb 31 24
  f1 := (c.extractLsb 23 20).toFin
  f2 := (c.extractLsb 19 16).toFin
  f3 := (c.extractLsb 15 12).toFin
  f4 := (c.extractLsb 11 8).toFin
  fn := c.extractLsb 7 0

/-- The word with given fields, `op` in the most significant position (R46). -/
def wordOfFields (f : Fields) : HostWord :=
  f.op ++ BitVec.ofFin (w := 4) f.f1 ++ BitVec.ofFin (w := 4) f.f2 ++ BitVec.ofFin (w := 4) f.f3 ++
    BitVec.ofFin (w := 4) f.f4 ++ f.fn

/-- The ROM entry a selector `k` names; `k > 8` names none (R48, R74). -/
def romEntryOf (k : BitVec 8) : Option RomEntry :=
  if k = 0 then some .zero
  else if k = 1 then some .one
  else if k = 2 then some .q96
  else if k = 3 then some .q128
  else if k = 4 then some .maxU256
  else if k = 5 then some .minSqrtRatio
  else if k = 6 then some .maxSqrtRatio
  else if k = 7 then some .minTick
  else if k = 8 then some .maxTick
  else none

/-- The selector of a ROM entry (R74). -/
def romSelector : RomEntry → BitVec 8
  | .zero => 0
  | .one => 1
  | .q96 => 2
  | .q128 => 3
  | .maxU256 => 4
  | .minSqrtRatio => 5
  | .maxSqrtRatio => 6
  | .minTick => 7
  | .maxTick => 8

/-- One row of the opcode table: a word `c` selects it when `c & mask = match`; `build` reads the operands off the
fields, in the roles the row's format gives them (R47), and fails only on an LDC selector above 8. -/
structure OpcodeRow where
  pattern : HostWord
  mask : HostWord
  build : Fields → Option Instr

/-- Row for the constants (R49). -/
def constantRows : List OpcodeRow := [
  ⟨0x01000000, 0xFF0FFF00, fun f => (romEntryOf f.fn).map (.ldc f.f1)⟩]

/-- Rows of the wide-integer family (R49). -/
def wideIntRows : List OpcodeRow := [
  ⟨0x10000000, 0xFF000FFF, fun f => some (.addw f.f1 f.f2 f.f3)⟩,
  ⟨0x11000000, 0xFF000FFF, fun f => some (.subw f.f1 f.f2 f.f3)⟩,
  ⟨0x12000000, 0xFF000FFF, fun f => some (.mulw f.f1 f.f2 f.f3)⟩,
  ⟨0x13000000, 0xFF000FFF, fun f => some (.mulhw f.f1 f.f2 f.f3)⟩,
  ⟨0x14000000, 0xFF0000FF, fun f => some (.muldivF f.f1 f.f2 f.f3 f.f4)⟩,
  ⟨0x14000001, 0xFF0000FF, fun f => some (.muldivC f.f1 f.f2 f.f3 f.f4)⟩,
  ⟨0x15000000, 0xFF000FFF, fun f => some (.divru f.f1 f.f2 f.f3)⟩,
  ⟨0x16000000, 0xFF00FFFF, fun f => some (.msb f.f1 f.f2)⟩,
  ⟨0x17000000, 0xFF00FFFF, fun f => some (.lsb f.f1 f.f2)⟩]

/-- Rows of the tick-math family (R49). -/
def tickMathRows : List OpcodeRow := [
  ⟨0x20000000, 0xFF00FFFF, fun f => some (.t2p f.f1 f.f2)⟩,
  ⟨0x21000000, 0xFF00FFFF, fun f => some (.p2t f.f1 f.f2)⟩]

/-- Rows of the bitmap family (R49). -/
def tickBitmapRows : List OpcodeRow := [
  ⟨0x30000000, 0xFF000FFF, fun f => some (.bmpos f.f1 f.f2 f.f3)⟩,
  ⟨0x31000000, 0xFFF00FFF, fun f => some (.bmflip f.f2 f.f3)⟩,
  ⟨0x32000000, 0xFF0000FF, fun f => some (.bmnextGt f.f1 f.f2 f.f3 f.f4)⟩,
  ⟨0x32000001, 0xFF0000FF, fun f => some (.bmnextLe f.f1 f.f2 f.f3 f.f4)⟩,
  ⟨0x33000000, 0xFF00FFFF, fun f => some (.bmld f.f1 f.f2)⟩,
  ⟨0x34000000, 0xFFF00FFF, fun f => some (.bmst f.f2 f.f3)⟩,
  ⟨0x35000000, 0xFFFFFFFF, fun _ => some .bmclr⟩]

/-- The complete list of commands, in the order of R49. -/
def opcodeTable : List OpcodeRow :=
  constantRows ++ wideIntRows ++ tickMathRows ++ tickBitmapRows

/-- `c & mask = match` (R49). -/
def OpcodeRow.selects (row : OpcodeRow) (c : HostWord) : Bool :=
  c &&& row.mask == row.pattern

/-- Why a word is no command: the three ILLEGAL_CMD tests of R50. -/
inductive Rejection where
  /-- No row of the table matches the word (R50, first test; R53). -/
  | noMatchingRow
  /-- LDC with a selector above 8 (R50, second test). -/
  | selectorAboveEight
  /-- A two-destination command with `rd = rd2` (R50, third test; R51). -/
  | equalDestinations
  deriving DecidableEq, Repr

/-- Decoding as R50 has it; it reads nothing but the word. -/
def decode (c : HostWord) : Except Rejection Instr :=
  match opcodeTable.find? (·.selects c) with
  | none => .error .noMatchingRow
  | some row =>
    match row.build (fieldsOf c) with
    | none => .error .selectorAboveEight
    | some i => if i.wellFormed then .ok i else .error .equalDestinations

/-- What decoding a numbered table word gives (`nbits` bits, the bits above them zero). A command is one 32-bit word
delivered by value (R45), so a longer one is none, and there is no byte order to apply. -/
def decodeTableWord (nbits w : Nat) : Option Instr :=
  if nbits ≤ 32 then (decode (BitVec.ofNat 32 (w % 2 ^ nbits))).toOption else none

/-- The fields of a command: its format R47 and its `op` and `fn` of R49; a field the format does not use is zero. -/
def fieldsOfInstr : Instr → Fields
  | .ldc rd k => ⟨0x01, rd, 0, 0, 0, romSelector k⟩
  | .addw rd rs1 rs2 => ⟨0x10, rd, rs1, rs2, 0, 0⟩
  | .subw rd rs1 rs2 => ⟨0x11, rd, rs1, rs2, 0, 0⟩
  | .mulw rd rs1 rs2 => ⟨0x12, rd, rs1, rs2, 0, 0⟩
  | .mulhw rd rs1 rs2 => ⟨0x13, rd, rs1, rs2, 0, 0⟩
  | .muldivF rd rs1 rs2 rs3 => ⟨0x14, rd, rs1, rs2, rs3, 0⟩
  | .muldivC rd rs1 rs2 rs3 => ⟨0x14, rd, rs1, rs2, rs3, 1⟩
  | .divru rd rs1 rs2 => ⟨0x15, rd, rs1, rs2, 0, 0⟩
  | .msb rd rs1 => ⟨0x16, rd, rs1, 0, 0, 0⟩
  | .lsb rd rs1 => ⟨0x17, rd, rs1, 0, 0, 0⟩
  | .t2p rd rs1 => ⟨0x20, rd, rs1, 0, 0, 0⟩
  | .p2t rd rs1 => ⟨0x21, rd, rs1, 0, 0, 0⟩
  | .bmpos rd rd2 rs1 => ⟨0x30, rd, rd2, rs1, 0, 0⟩
  | .bmflip rs1 rs2 => ⟨0x31, 0, rs1, rs2, 0, 0⟩
  | .bmnextGt rd rd2 rs1 rs2 => ⟨0x32, rd, rd2, rs1, rs2, 0⟩
  | .bmnextLe rd rd2 rs1 rs2 => ⟨0x32, rd, rd2, rs1, rs2, 1⟩
  | .bmld rd rs1 => ⟨0x33, rd, rs1, 0, 0, 0⟩
  | .bmst rs1 rs2 => ⟨0x34, 0, rs1, rs2, 0, 0⟩
  | .bmclr => ⟨0x35, 0, 0, 0, 0, 0⟩

/-- The word of a command (R49, R56). -/
def encode (i : Instr) : HostWord := wordOfFields (fieldsOfInstr i)

end Sys2Proof
end

