-- ==== Sys2Proof/Machine/State.lean ====
section
/-! DEFINITION. The machine as plain data (spec/10_state.md): what the spec gives the unit, and the host's side of the
port (the transactions to come and the answer to the last one). -/

namespace Sys2Proof.Machine

/-- The cause codes (spec/60_exceptions.md R100): exactly ten, 0 to 9 (spec/93_implementation_defined.md U8). -/
inductive Cause where
  /-- Code 0, NONE: no fault latched; never raised. -/
  | noFault
  /-- Code 1, ILLEGAL_CMD: raised by the decoder (R50, R53). -/
  | illegalCmd
  /-- Code 2, DIV_ZERO: raised by MULDIV.F, MULDIV.C, DIVRU. -/
  | divZero
  /-- Code 3, UNREPRESENTABLE: raised by MULDIV.F, MULDIV.C. -/
  | unrepresentable
  /-- Code 4, ZERO_SCAN: raised by MSB, LSB. -/
  | zeroScan
  /-- Code 5, TICK_RANGE: raised by T2P, BMPOS, BMFLIP, BMNEXT. -/
  | tickRange
  /-- Code 6, PRICE_RANGE: raised by P2T. -/
  | priceRange
  /-- Code 7, TICK_MISALIGNED: raised by BMFLIP. -/
  | tickMisaligned
  /-- Code 8, SPACING_RANGE: raised by BMFLIP, BMNEXT. -/
  | spacingRange
  /-- Code 9, BM_INDEX_RANGE: raised by BMLD, BMST. -/
  | bmIndexRange
  deriving DecidableEq, Repr

/-- The bitmap memory `BM` as (key, word) pairs (R25). The key of word index `w` is its 16-bit pattern read as a
number, `w.toNat`. Canonical form: keys strictly rising and below 65536, and no pair holding the value an unlisted
word reads as (`Memory.unlisted`, `Memory.wf` in Machine/Ops.lean). DESIGN CHOICE, safe: log 3. -/
abbrev Memory := List (Nat × Word)

/-- The width of a host transaction (spec/20_memory.md R33): only `bits32` is accepted (the list of the others is R33's;
DESIGN CHOICE, safe: log 17). -/
inductive Width where
  | bits8
  | bits16
  | bits32
  | bits64
  | burst
  deriving DecidableEq, Repr

/-- A host transaction on the register window (R30), at a byte offset from `BASE`. `data` is the 32-bit datum; of a
write of another width it is never looked at (R33: such an access has no effect). -/
inductive Transaction where
  | read (width : Width) (off : Offset)
  | write (width : Width) (off : Offset) (data : HostWord)
  deriving DecidableEq, Repr

/-- The unit's answer to a transaction (R30): OK, OK with the data read, or ERR. An ERR carries no data, so nothing
can be claimed about the unspecified data of such a read (U4; DESIGN CHOICE, safe: log 6). -/
inductive Response where
  | ok
  | okData (data : HostWord)
  | err
  deriving DecidableEq, Repr

/-- The whole machine. The first five fields are the spec's `State` tuple (spec/10_state.md), the last two are the
model's own and hold the host's side of the port (log 4, log 6). -/
structure State where
  /-- `x[0]` to `x[15]` (R13). -/
  x : Vector Word 16
  /-- `BM` (R25). -/
  bm : Memory
  /-- `STATUS.FAULT` (R19). -/
  fault : Bool
  /-- `FCAUSE.CAUSE` (R20). -/
  fcause : Cause
  /-- `FCMD.CMDWORD` (R21). -/
  fcmd : HostWord
  /-- The host's transactions still to be issued, in order (R41, R123; DESIGN CHOICE, safe: log 4). -/
  pending : List Transaction
  /-- The answer to the last transaction, none before the first (R30; DESIGN CHOICE, safe: log 6). -/
  response : Option Response
  deriving DecidableEq, Repr

/-- Why the machine stops. NO constructor: a fault of a command is latched and the unit goes on (R103, R108), an ERR
answer changes nothing (R34), and the unit has no terminal state (R123). DEDUCED, log 11; safe, since no claim can be
about a stop the hardware does not have. -/
inductive Fault where
  deriving DecidableEq, Repr

/-- Why an instruction has no meaning in the model. -/
inductive Refusal where
  /-- Raised by `exec` alone, for an instruction not modelled yet; safe. No arm of `exec` raises it in this model. -/
  | notModelled (mnemonic : String)
  deriving DecidableEq, Repr

/-- The state after reset for given contents of the registers and of the bitmap (R28, R116): the latch is clear, the
contents are whatever they are. -/
def State.resetWith (x : Vector Word 16) (bm : Memory) : State where
  x := x
  bm := bm
  fault := false
  fcause := .noFault
  fcmd := 0
  pending := []
  response := none

/-- The machine right after reset. The spec leaves the registers and the bitmap unspecified (R28, U1, U2); the model
names zero for both (DESIGN CHOICE, unsafe: log 1, log 2) and no statement rests on that. -/
def State.reset : State := State.resetWith (Vector.replicate 16 0) []

end Sys2Proof.Machine
end

