-- ==== Sys2Proof/Machine/Ops.lean ====
section
/-! DEFINITION. The named operations over the state: registers, the bitmap memory, the fault latch (taking a fault and
returning from one), and how a command ends. -/

namespace Sys2Proof.Machine

/-! ## General registers (spec/10_state.md R13, R14) -/

/-- `x[r]`. -/
def State.reg (s : State) (r : Reg) : Word := s.x.get r

/-- `x[r] <- v`. No register is hardwired (R14). -/
def State.setReg (s : State) (r : Reg) (v : Word) : State := { s with x := s.x.set r v }

/-! ## The bitmap memory (spec/20_memory.md R38) -/

/-- What a word the memory does not list reads as. The spec leaves the bitmap's content after reset unspecified (R28,
U2); the model names the empty word (DESIGN CHOICE, unsafe: log 2). -/
def Memory.unlisted : Word := 0

/-- The word under a key. -/
def Memory.read : Memory → Nat → Word
  | [], _ => Memory.unlisted
  | (j, u) :: rest, k => if j = k then u else Memory.read rest k

/-- `v` put under the key `k`, in canonical form: the value of an unlisted word is not listed. -/
def Memory.write : Memory → Nat → Word → Memory
  | [], k, v => if v = Memory.unlisted then [] else [(k, v)]
  | (j, u) :: rest, k, v =>
    if j < k then (j, u) :: Memory.write rest k v
    else if j = k then (if v = Memory.unlisted then rest else (k, v) :: rest)
    else if v = Memory.unlisted then (j, u) :: rest else (k, v) :: (j, u) :: rest

/-- The canonical form of a list of words whose keys start at `lo`. -/
def Memory.wfFrom : Nat → Memory → Bool
  | _, [] => true
  | lo, (k, v) :: rest => decide (lo ≤ k) && decide (k < 65536) && v != Memory.unlisted && Memory.wfFrom (k + 1) rest

/-- The memory is in canonical form: keys strictly rising, below 65536, nothing listed that an unlisted word reads as. -/
def Memory.wf (m : Memory) : Bool := Memory.wfFrom 0 m

/-- The memory all of whose words are 0 (R96). It lists nothing because `Memory.unlisted` is 0. -/
def Memory.cleared : Memory := []

/-- `MemRead(w, 32)` (R38). -/
def State.bmRead (s : State) (w : WordIndex) : Word := s.bm.read w.toNat

/-- `MemWrite(w, 32, v)` (R38). -/
def State.bmWrite (s : State) (w : WordIndex) (v : Word) : State := { s with bm := s.bm.write w.toNat v }

/-- `MemWrite(w, 32, 0)` for every `w` (R96). -/
def State.bmClear (s : State) : State := { s with bm := Memory.cleared }

/-! ## The fault latch (spec/60_exceptions.md R103, R108) -/

/-- Fault entry for the command word `c` (R103): the three latch registers are written, nothing else changes. -/
def State.raiseFault (s : State) (cause : Cause) (c : HostWord) : State :=
  { s with fault := true, fcause := cause, fcmd := c }

/-- Return from a fault (R108): the three latch registers are cleared, nothing else changes. -/
def State.clearFault (s : State) : State :=
  { s with fault := false, fcause := .noFault, fcmd := 0 }

/-- How a command ends. It answers what it has written, or the cause it raises; then everything it has written is
dropped and the fault is taken on the state it started from (R103). The word recorded is the command's encoding, which
is the word that was decoded to it (DEDUCED from R49, log 7). -/
def endCommand (i : Instr) (s : State) : Except Cause State → Host.Outcome State Fault Refusal
  | .ok t => .next t
  | .error cause => .next (s.raiseFault cause (encode i))

/-- The guard of a two-destination command: `rd = rd2` is ILLEGAL_CMD before any operand is read (R50, R51). No word
decodes to such a term; this is what `exec` does with it (DEDUCED, log 13). -/
def requireDistinct (rd rd2 : Reg) (effect : Except Cause State) : Except Cause State :=
  if rd = rd2 then .error .illegalCmd else effect

end Sys2Proof.Machine
end

