-- ==== Sys2Proof/Machine/Operands.lean ====
section
/-! DEFINITION. Operand forms: the unsigned and signed views of a register, how a result is held (spec/00_scope.md R7,
spec/10_state.md R15), and the eight limbs of a register (spec/20_memory.md R31, R32). -/

namespace Sys2Proof.Machine

/-- `u(x[r])`: the unsigned value, all 256 bits significant (R7, R15). -/
def State.u (s : State) (r : Reg) : Nat := (s.reg r).toNat

/-- `s(x[r])`: the two's-complement value, all 256 bits significant (R7, R15). -/
def State.s (s : State) (r : Reg) : Int := (s.reg r).toInt

/-- `enc(n)`: the 256-bit vector of value `n mod 2^256` (R7). -/
def enc (n : Int) : Word := BitVec.ofInt 256 n

/-- A boolean result: `enc(0)` false, `enc(1)` true (R15). -/
def encBool (b : Bool) : Word := if b then enc 1 else enc 0

/-- The bitmap word index of an integer in -32768 .. 32767 (R25, R38). -/
def wordIndex (w : Int) : WordIndex := BitVec.ofInt 16 w

/-- `v[32*j+31 : 32*j]`: limb `j` of a register, limb 0 the least significant (R31, R32). -/
def limb (v : Word) (j : Fin 8) : HostWord := v.extractLsb' (32 * j.val) 32

/-- `v` with exactly the 32 bits of limb `j` replaced by `d` (R31). -/
def setLimb (v : Word) (j : Fin 8) (d : HostWord) : Word :=
  (v &&& ~~~((0xFFFFFFFF : Word) <<< (32 * j.val))) ||| (d.setWidth 256 <<< (32 * j.val))

end Sys2Proof.Machine
end

