-- ==== Sys2Proof/Machine/FixedPoint.lean ====
section
/-! DEFINITION. The fixed-point constants and LDC (spec/41_fixedpoint_const.md). -/

namespace Sys2Proof.Machine

/-- MIN_TICK (R5, R74). -/
def minTick : Int := -887272

/-- MAX_TICK (R5, R74). -/
def maxTick : Int := 887272

/-- MIN_SQRT_RATIO (R5, R74). -/
def minSqrtRatio : Nat := 4295128739

/-- MAX_SQRT_RATIO (R5, R74). -/
def maxSqrtRatio : Nat := 1461446703485210103287273052203988822378723970342

/-- The constant ROM (R74): the integer each entry holds; a register gets its `enc`. -/
def romValue : RomEntry → Int
  | .zero => 0
  | .one => 1
  | .q96 => 79228162514264337593543950336
  | .q128 => 340282366920938463463374607431768211456
  | .maxU256 => 115792089237316195423570985008687907853269984665640564039457584007913129639935
  | .minSqrtRatio => (minSqrtRatio : Int)
  | .maxSqrtRatio => (maxSqrtRatio : Int)
  | .minTick => minTick
  | .maxTick => maxTick

/-- `LDC wd, k` (R73): `x[rd] <- ROM[k]`. -/
def execLdc (rd : Reg) (k : RomEntry) (s : State) : Host.Outcome State Fault Refusal :=
  endCommand (.ldc rd k) s (.ok (s.setReg rd (enc (romValue k))))

end Sys2Proof.Machine
end

