-- ==== Sys2Proof/Machine/Flags.lean ====
section
/-! DEFINITION. The unit has no condition flags (spec/10_state.md R18): no command computes one. What it has is the
fault latch; here is how the latch reads back through STATUS, FCAUSE and FCMD (R19 to R21), and the ID constant (R23). -/

namespace Sys2Proof.Machine

/-- The code recorded in FCAUSE.CAUSE (spec/60_exceptions.md R100). -/
def causeCode : Cause → BitVec 4
  | .noFault => 0
  | .illegalCmd => 1
  | .divZero => 2
  | .unrepresentable => 3
  | .zeroScan => 4
  | .tickRange => 5
  | .priceRange => 6
  | .tickMisaligned => 7
  | .spacingRange => 8
  | .bmIndexRange => 9

/-- STATUS: bit 0 is FAULT, bits 31:1 read as 0 (R19). -/
def statusWord (s : State) : HostWord := (0 : BitVec 31) ++ BitVec.ofBool s.fault

/-- FCAUSE: bits 3:0 are CAUSE, bits 31:4 read as 0 (R20). -/
def fcauseWord (s : State) : HostWord := (0 : BitVec 28) ++ causeCode s.fcause

/-- ID reads as this constant (R23). -/
def idWord : HostWord := 0x574D4401

end Sys2Proof.Machine
end

