-- ==== Sys2Proof/Machine/WideInt.lean ====
section
/-! DEFINITION. The WideInt and FullMath commands (spec/40_wideint.md). Operands are unsigned and arithmetic is exact;
the result is narrowed by `enc`, which reduces modulo 2^256 (R7). -/

namespace Sys2Proof.Machine

/-- The destination gets the value a computation yields, or the computation's cause is raised. -/
def resultTo (s : State) (rd : Reg) : Except Cause Int → Except Cause State
  | .ok n => .ok (s.setReg rd (enc n))
  | .error cause => .error cause

/-- `mul_div` (R63): the floor of `a*b/d`. -/
def mulDiv (a b d : Nat) : Except Cause Int :=
  if d = 0 then .error .divZero
  else if a * b / d ≥ modulus then .error .unrepresentable
  else .ok (a * b / d : Nat)

/-- `mul_div_rounding_up` (R64): the ceiling of `a*b/d`, in the rule's own steps. -/
def mulDivRoundingUp (a b d : Nat) : Except Cause Int :=
  if d = 0 then .error .divZero
  else if a * b / d ≥ modulus then .error .unrepresentable
  else if a * b % d ≠ 0 then
    if a * b / d = modulus - 1 then .error .unrepresentable
    else .ok (a * b / d + 1 : Nat)
  else .ok (a * b / d : Nat)

/-- `unsafe_div_rounding_up` (R65): the ceiling of `n/y`, the sum not wrapped. -/
def divRoundingUp (n y : Nat) : Except Cause Int :=
  if y = 0 then .error .divZero else .ok ((n + y - 1) / y : Nat)

/-- The index of the highest set bit of a non-zero value: `2^i <= v < 2^(i+1)` (R66). -/
def highestBit (v : Nat) : Nat := v.log2

/-- The index of the lowest set bit among the lowest `n` bits of `v`, `n` if none is set. -/
def lowestBitBelow : Nat → Nat → Nat
  | 0, _ => 0
  | n + 1, v => if v % 2 = 1 then 0 else lowestBitBelow n (v / 2) + 1

/-- The index of the lowest set bit of a non-zero 256-bit value: the greatest `i` with `2^i` dividing `v` (R67). -/
def lowestBit (v : Nat) : Nat := lowestBitBelow 256 v

/-- A bit scan panics on zero (R66, R67). -/
def scan (find : Nat → Nat) (v : Nat) : Except Cause Int :=
  if v = 0 then .error .zeroScan else .ok (find v : Nat)

/-- `ADDW wd, wa, wb` (R59). -/
def execAddw (rd rs1 rs2 : Reg) (s : State) : Host.Outcome State Fault Refusal :=
  endCommand (.addw rd rs1 rs2) s (resultTo s rd (.ok ((s.u rs1 : Int) + s.u rs2)))

/-- `SUBW wd, wa, wb` (R60). -/
def execSubw (rd rs1 rs2 : Reg) (s : State) : Host.Outcome State Fault Refusal :=
  endCommand (.subw rd rs1 rs2) s (resultTo s rd (.ok ((s.u rs1 : Int) - s.u rs2)))

/-- `MULW wd, wa, wb` (R61): the low word of the product. -/
def execMulw (rd rs1 rs2 : Reg) (s : State) : Host.Outcome State Fault Refusal :=
  endCommand (.mulw rd rs1 rs2) s (resultTo s rd (.ok (s.u rs1 * s.u rs2 % modulus : Nat)))

/-- `MULHW wd, wa, wb` (R62): the high word of the product. -/
def execMulhw (rd rs1 rs2 : Reg) (s : State) : Host.Outcome State Fault Refusal :=
  endCommand (.mulhw rd rs1 rs2) s (resultTo s rd (.ok (s.u rs1 * s.u rs2 / modulus : Nat)))

/-- `MULDIV.F wd, wa, wb, wc` (R63). -/
def execMuldivF (rd rs1 rs2 rs3 : Reg) (s : State) : Host.Outcome State Fault Refusal :=
  endCommand (.muldivF rd rs1 rs2 rs3) s (resultTo s rd (mulDiv (s.u rs1) (s.u rs2) (s.u rs3)))

/-- `MULDIV.C wd, wa, wb, wc` (R64). -/
def execMuldivC (rd rs1 rs2 rs3 : Reg) (s : State) : Host.Outcome State Fault Refusal :=
  endCommand (.muldivC rd rs1 rs2 rs3) s (resultTo s rd (mulDivRoundingUp (s.u rs1) (s.u rs2) (s.u rs3)))

/-- `DIVRU wd, wa, wb` (R65). -/
def execDivru (rd rs1 rs2 : Reg) (s : State) : Host.Outcome State Fault Refusal :=
  endCommand (.divru rd rs1 rs2) s (resultTo s rd (divRoundingUp (s.u rs1) (s.u rs2)))

/-- `MSB wd, wa` (R66). -/
def execMsb (rd rs1 : Reg) (s : State) : Host.Outcome State Fault Refusal :=
  endCommand (.msb rd rs1) s (resultTo s rd (scan highestBit (s.u rs1)))

/-- `LSB wd, wa` (R67). -/
def execLsb (rd rs1 : Reg) (s : State) : Host.Outcome State Fault Refusal :=
  endCommand (.lsb rd rs1) s (resultTo s rd (scan lowestBit (s.u rs1)))

end Sys2Proof.Machine
end

