-- ==== Sys2Proof/Machine/TickBitmap.lean ====
section
/-! DEFINITION. The TickBitmap commands (spec/43_tickbitmap.md). `/` and `%` on `Int` are the floor quotient and the
non-negative remainder for the positive divisors used here (spec/00_scope.md R7). -/

namespace Sys2Proof.Machine

/-- `position(c)`: the word index and the bit index of a compressed tick (R87). -/
def position (c : Int) : Except Cause (Int × Nat) :=
  if c < minTick ∨ c > maxTick then .error .tickRange else .ok (c / 256, (c % 256).toNat)

/-- The tick-spacing check: `1 <= sp <= 887272` (R88). -/
def spacingOutside (sp : Int) : Bool := decide (sp < 1 ∨ sp > 887272)

/-- The word of the bitmap a position names. -/
def State.wordAt (s : State) (w : Int) : Word := s.bmRead (wordIndex w)

/-- What BMNEXT answers: the next tick and whether it is initialized. -/
structure NextTick where
  next : Int
  init : Bool
  deriving DecidableEq, Repr

/-- The search at and below bit `b` of a word (R91): the highest set bit there, else bit 0 of the word. `c` is the
compressed tick that bit `b` stands for. -/
def searchDown (word : Word) (c : Int) (b : Nat) (sp : Int) : NextTick :=
  let masked := word.toNat &&& (2 ^ (b + 1) - 1)
  if masked ≠ 0 then ⟨(c - ((b : Int) - highestBit masked)) * sp, true⟩
  else ⟨(c - b) * sp, false⟩

/-- The search at and above bit `b` of a word (R92): the lowest set bit there, else bit 255 of the word (the rule marks
that last formula as its own inference: DEDUCED, unsafe: log 18). `c` is the compressed tick that bit `b`
stands for. -/
def searchUp (word : Word) (c : Int) (b : Nat) (sp : Int) : NextTick :=
  let masked := word.toNat &&& ((2 ^ 256 - 1) - (2 ^ b - 1))
  if masked ≠ 0 then ⟨(c + ((lowestBit masked : Int) - b)) * sp, true⟩
  else ⟨(c + (255 - b)) * sp, false⟩

/-- `flip_tick` (R90): the checks in the rule's order, then exactly one bit of one word toggled. -/
def flipTick (s : State) (t sp : Int) : Except Cause State :=
  if spacingOutside sp then .error .spacingRange
  else if t % sp ≠ 0 then .error .tickMisaligned
  else
    match position (t / sp) with
    | .error cause => .error cause
    | .ok (w, b) => .ok (s.bmWrite (wordIndex w) (s.wordAt w ^^^ (1 : Word) <<< b))

/-- `next_initialized_tick_within_one_word` with `lte = true` (R91). -/
def nextTickDown (s : State) (t sp : Int) : Except Cause NextTick :=
  if spacingOutside sp then .error .spacingRange
  else
    match position (t / sp) with
    | .error cause => .error cause
    | .ok (w, b) => .ok (searchDown (s.wordAt w) (t / sp) b sp)

/-- `next_initialized_tick_within_one_word` with `lte = false` (R92): it starts one compressed tick above. -/
def nextTickUp (s : State) (t sp : Int) : Except Cause NextTick :=
  if spacingOutside sp then .error .spacingRange
  else
    match position (t / sp + 1) with
    | .error cause => .error cause
    | .ok (w, b) => .ok (searchUp (s.wordAt w) (t / sp + 1) b sp)

/-- The two destinations of BMNEXT get the next tick and the flag. -/
def nextTickTo (s : State) (rd rd2 : Reg) : Except Cause NextTick → Except Cause State
  | .ok n => .ok ((s.setReg rd (enc n.next)).setReg rd2 (encBool n.init))
  | .error cause => .error cause

/-- The two destinations of BMPOS get the word index and the bit index. -/
def positionTo (s : State) (rd rd2 : Reg) : Except Cause (Int × Nat) → Except Cause State
  | .ok (w, b) => .ok ((s.setReg rd (enc w)).setReg rd2 (enc b))
  | .error cause => .error cause

/-- The index check of BMLD and BMST (R94, R95). -/
def indexOutside (w : Int) : Bool := decide (w < -32768 ∨ w > 32767)

/-- `BMPOS wd, we, wa` (R89). -/
def execBmpos (rd rd2 rs1 : Reg) (s : State) : Host.Outcome State Fault Refusal :=
  endCommand (.bmpos rd rd2 rs1) s (requireDistinct rd rd2 (positionTo s rd rd2 (position (s.s rs1))))

/-- `BMFLIP wa, wb` (R90). -/
def execBmflip (rs1 rs2 : Reg) (s : State) : Host.Outcome State Fault Refusal :=
  endCommand (.bmflip rs1 rs2) s (flipTick s (s.s rs1) (s.s rs2))

/-- `BMNEXT.GT wd, we, wa, wb` (R92). -/
def execBmnextGt (rd rd2 rs1 rs2 : Reg) (s : State) : Host.Outcome State Fault Refusal :=
  endCommand (.bmnextGt rd rd2 rs1 rs2) s
    (requireDistinct rd rd2 (nextTickTo s rd rd2 (nextTickUp s (s.s rs1) (s.s rs2))))

/-- `BMNEXT.LE wd, we, wa, wb` (R91). -/
def execBmnextLe (rd rd2 rs1 rs2 : Reg) (s : State) : Host.Outcome State Fault Refusal :=
  endCommand (.bmnextLe rd rd2 rs1 rs2) s
    (requireDistinct rd rd2 (nextTickTo s rd rd2 (nextTickDown s (s.s rs1) (s.s rs2))))

/-- `BMLD wd, wa` (R94). -/
def execBmld (rd rs1 : Reg) (s : State) : Host.Outcome State Fault Refusal :=
  endCommand (.bmld rd rs1) s
    (if indexOutside (s.s rs1) then .error .bmIndexRange else .ok (s.setReg rd (s.wordAt (s.s rs1))))

/-- `BMST wa, wb` (R95). -/
def execBmst (rs1 rs2 : Reg) (s : State) : Host.Outcome State Fault Refusal :=
  endCommand (.bmst rs1 rs2) s
    (if indexOutside (s.s rs1) then .error .bmIndexRange
     else .ok (s.bmWrite (wordIndex (s.s rs1)) (s.reg rs2)))

/-- `BMCLR` (R96). -/
def execBmclr (s : State) : Host.Outcome State Fault Refusal :=
  endCommand .bmclr s (.ok s.bmClear)

end Sys2Proof.Machine
end

