-- ==== Sys2Proof/Machine/TickMath.lean ====
section
/-! DEFINITION. The TickMath commands T2P and P2T (spec/42_tickmath.md). The constants and P2T's loop body are those
the spec gives from general knowledge, G1 to G3 (PRESUMED by the spec, unsafe: log 10). -/

namespace Sys2Proof.Machine

/-! ## Tick to square-root price -/

/-- The tick ladder `K[0]` to `K[19]`, Q128.128 (R77). -/
def ladder : List Nat :=
  [0xfffcb933bd6fad37aa2d162d1a594001, 0xfff97272373d413259a46990580e213a,
   0xfff2e50f5f656932ef12357cf3c7fdcc, 0xffe5caca7e10e4e61c3624eaa0941cd0,
   0xffcb9843d60f6159c9db58835c926644, 0xff973b41fa98c081472e6896dfb254c0,
   0xff2ea16466c96a3843ec78b326b52861, 0xfe5dee046a99a2a811c461f1969c3053,
   0xfcbe86c7900a88aedcffc83b479aa3a4, 0xf987a7253ac413176f2b074cf7815e54] ++
  [0xf3392b0822b70005940c7a398e4b70f3, 0xe7159475a2c29b7443b29c7fa6e889d9,
   0xd097f3bdfd2022b8845ad8f792aa5825, 0xa9f746462d870fdf8a65dc1f90e061e5,
   0x70d869a156d2a1b890bb3df62baf32f7, 0x31be135f97d08fd981231505542fcfa6,
   0x9aa508b5b7a84e1c677de54f3e99bc9, 0x5d6af8dedb81196699c329225ee604,
   0x2216e584f5fa1ea926041bedfe98, 0x48a170391f7dc42444e8fa2]

/-- `K[k]` (R77). -/
def ladderAt (k : Nat) : Nat := ladder.getD k 0

/-- The step for bit `k` of `a = |tick|`: the exact product with `K[k]`, then the floor of its shift by 128 (R78). -/
def ladderStep (a r k : Nat) : Nat :=
  if a.testBit k then (r * ladderAt k) >>> 128 else r

/-- The Q128.128 ratio for `a = |tick|`: bit 0 picks the start, then bits 1 to 19 in ascending order (R78). -/
def ladderRatio (a : Nat) : Nat :=
  (List.range' 1 19).foldl (ladderStep a) (if a.testBit 0 then ladderAt 0 else 2 ^ 128)

/-- The ratio of a signed tick: inverted for a positive one (R78). -/
def tickRatio (t : Int) : Nat :=
  if t > 0 then (2 ^ 256 - 1) / ladderRatio t.natAbs else ladderRatio t.natAbs

/-- Q128.128 to Q64.96: a shift by 32, rounding up (R75, R78). -/
def toQ96 (r : Nat) : Nat := (r >>> 32) + (if r % 2 ^ 32 ≠ 0 then 1 else 0)

/-- The value of T2P's computation, without its range check (R78; used so by P2T: log 12). -/
def sqrtRatioAt (t : Int) : Nat := toQ96 (tickRatio t)

/-- `get_sqrt_ratio_at_tick` with its range check (R78). -/
def getSqrtRatioAtTick (t : Int) : Except Cause Int :=
  if t.natAbs > 887272 then .error .tickRange else .ok (sqrtRatioAt t : Nat)

/-- `T2P wd, wa` (R78). -/
def execT2p (rd rs1 : Reg) (s : State) : Host.Outcome State Fault Refusal :=
  endCommand (.t2p rd rs1) s (resultTo s rd (getSqrtRatioAtTick (s.s rs1)))

/-! ## Square-root price to tick -/

/-- LOGC (R81). -/
def logConstant : Int := 255738958999603826347141

/-- LOW_ADJ (R81). -/
def lowAdjust : Int := 3402992956809132418596140100660247210

/-- HIGH_ADJ (R81). -/
def highAdjust : Int := 291339464771989622907027621153398088495

/-- The mantissa: the ratio shifted so that its highest bit `m` stands at 127 (R82). -/
def normalise (ratio m : Nat) : Nat :=
  if m ≥ 128 then ratio >>> (m - 127) else ratio <<< (127 - m)

/-- One squaring iteration on the mantissa and the logarithm, for fraction bit `i` (R82). -/
def logStep (st : Nat × Int) (i : Nat) : Nat × Int :=
  let r := (st.1 * st.1) >>> 127
  let f := r >>> 128
  (r >>> f, st.2 + (f : Int) * 2 ^ i)

/-- The fourteen fraction bits, in order (R82). -/
def fractionBits : List Nat := [63, 62, 61, 60, 59, 58, 57, 56, 55, 54, 53, 52, 51, 50]

/-- The signed Q64.64 base-2 logarithm of the price `p` (R82). -/
def logPrice (p : Nat) : Int :=
  let ratio := p <<< 32
  let m := highestBit ratio
  (fractionBits.foldl logStep (normalise ratio m, ((m : Int) - 128) * 2 ^ 64)).2

/-- `tick_low` (R82); the shift of a signed integer is a floor (R7). -/
def tickLow (p : Nat) : Int := (logPrice p * logConstant - lowAdjust) / 2 ^ 128

/-- `tick_hi` (R82). -/
def tickHigh (p : Nat) : Int := (logPrice p * logConstant + highAdjust) / 2 ^ 128

/-- The choice between the two candidates (R82). -/
def chooseTick (p : Nat) : Int :=
  if tickLow p = tickHigh p then tickLow p
  else if sqrtRatioAt (tickHigh p) ≤ p then tickHigh p
  else tickLow p

/-- `get_tick_at_sqrt_ratio` with its range check, the upper bound exclusive (R82). -/
def getTickAtSqrtRatio (p : Nat) : Except Cause Int :=
  if p < minSqrtRatio ∨ p ≥ maxSqrtRatio then .error .priceRange else .ok (chooseTick p)

/-- `P2T wd, wa` (R82). -/
def execP2t (rd rs1 : Reg) (s : State) : Host.Outcome State Fault Refusal :=
  endCommand (.p2t rd rs1) s (resultTo s rd (getTickAtSqrtRatio (s.u rs1)))

end Sys2Proof.Machine
end

