-- ==== Sys2Proof/Machine/Dispatch.lean ====
section
/-! DEFINITION. The dispatch from a command to its meaning: one arm per constructor. -/

namespace Sys2Proof.Machine

def exec (i : Instr) (s : State) : Host.Outcome State Fault Refusal :=
  match i with
  | .ldc rd k => Sys2Proof.Machine.execLdc rd k s
  | .addw rd rs1 rs2 => Sys2Proof.Machine.execAddw rd rs1 rs2 s
  | .subw rd rs1 rs2 => Sys2Proof.Machine.execSubw rd rs1 rs2 s
  | .mulw rd rs1 rs2 => Sys2Proof.Machine.execMulw rd rs1 rs2 s
  | .mulhw rd rs1 rs2 => Sys2Proof.Machine.execMulhw rd rs1 rs2 s
  | .muldivF rd rs1 rs2 rs3 => Sys2Proof.Machine.execMuldivF rd rs1 rs2 rs3 s
  | .muldivC rd rs1 rs2 rs3 => Sys2Proof.Machine.execMuldivC rd rs1 rs2 rs3 s
  | .divru rd rs1 rs2 => Sys2Proof.Machine.execDivru rd rs1 rs2 s
  | .msb rd rs1 => Sys2Proof.Machine.execMsb rd rs1 s
  | .lsb rd rs1 => Sys2Proof.Machine.execLsb rd rs1 s
  | .t2p rd rs1 => Sys2Proof.Machine.execT2p rd rs1 s
  | .p2t rd rs1 => Sys2Proof.Machine.execP2t rd rs1 s
  | .bmpos rd rd2 rs1 => Sys2Proof.Machine.execBmpos rd rd2 rs1 s
  | .bmflip rs1 rs2 => Sys2Proof.Machine.execBmflip rs1 rs2 s
  | .bmnextGt rd rd2 rs1 rs2 => Sys2Proof.Machine.execBmnextGt rd rd2 rs1 rs2 s
  | .bmnextLe rd rd2 rs1 rs2 => Sys2Proof.Machine.execBmnextLe rd rd2 rs1 rs2 s
  | .bmld rd rs1 => Sys2Proof.Machine.execBmld rd rs1 s
  | .bmst rs1 rs2 => Sys2Proof.Machine.execBmst rs1 rs2 s
  | .bmclr => Sys2Proof.Machine.execBmclr s

end Sys2Proof.Machine
end

