-- ==== Sys2Proof/Machine/HostPort.lean ====
section
/-! DEFINITION. The host's register window (spec/20_memory.md R29 to R36): which register an offset names, what a read
returns, what a write does, and how a transaction comes from the bus. -/

namespace Sys2Proof.Machine

/-- What an offset of the window can name (R31). -/
inductive HostReg where
  /-- Limb `j` of `x[i]`. -/
  | limbOf (i : Reg) (j : Fin 8)
  | cmd
  | status
  | fcause
  | fcmd
  | ctrl
  | ident
  deriving DecidableEq, Repr

/-- The register map of R31; an offset that is reserved or no multiple of 4 names nothing (R33, R34). -/
def hostRegAt (off : Offset) : Option HostReg :=
  if off.extractLsb 1 0 ≠ 0 then none
  else if off.extractLsb 9 9 = 0 then some (.limbOf (off.extractLsb 8 5).toFin (off.extractLsb 4 2).toFin)
  else if off = 0x200 then some .cmd
  else if off = 0x204 then some .status
  else if off = 0x208 then some .fcause
  else if off = 0x20C then some .fcmd
  else if off = 0x210 then some .ctrl
  else if off = 0x214 then some .ident
  else none

/-- The offset of limb `j` of `x[i]`: `32*i + 4*j` (R31). -/
def limbOffset (i : Reg) (j : Fin 8) : Offset := BitVec.ofNat 10 (32 * i.val + 4 * j.val)

/-- The offset of CMD (R24). -/
def cmdOffset : Offset := 0x200

/-- What a 32-bit host read of a named register returns; CMD and CTRL are write-only (R31). -/
def hostRead (s : State) : HostReg → Response
  | .limbOf i j => .okData (limb (s.reg i) j)
  | .cmd => .err
  | .status => .okData (statusWord s)
  | .fcause => .okData (fcauseWord s)
  | .fcmd => .okData s.fcmd
  | .ctrl => .err
  | .ident => .okData idWord

/-- The state once a transaction has been answered `r`. -/
def State.answer (s : State) (r : Response) : State := { s with response := some r }

/-- A word written to CMD (R24): discarded while a fault is latched (R106), else decoded and executed, an illegal word
raising ILLEGAL_CMD (R50, R53). -/
def deliverCommand (s : State) (c : HostWord) : Host.Outcome State Fault Refusal :=
  if s.fault then .next s
  else
    match decode c with
    | .error _ => .next (s.raiseFault .illegalCmd c)
    | .ok i => exec i s

/-- A word written to CTRL (R22): bit 0 clears the latch, the other bits are ignored. -/
def writeCtrl (s : State) (d : HostWord) : State :=
  if d.getLsbD 0 then s.clearFault else s

/-- A 32-bit host write of a named register: limbs, CMD and CTRL take it and answer OK, whatever the command then does
(R103, R106, R111); the others answer ERR (R31, R34). -/
def hostWrite (s : State) (d : HostWord) : HostReg → Host.Outcome State Fault Refusal
  | .limbOf i j => .next ((s.setReg i (setLimb (s.reg i) j d)).answer .ok)
  | .cmd => deliverCommand (s.answer .ok) d
  | .ctrl => .next ((writeCtrl s d).answer .ok)
  | .status => .next (s.answer .err)
  | .fcause => .next (s.answer .err)
  | .fcmd => .next (s.answer .err)
  | .ident => .next (s.answer .err)

/-- One host transaction, one atomic step of the whole machine (R30, R36). Another width than 32 bits, or an offset
that names nothing, is answered ERR and has no effect (R33, R34). -/
def transact (s : State) : Transaction → Host.Outcome State Fault Refusal
  | .read width off =>
    if width = .bits32 then
      match hostRegAt off with
      | some r => .next (s.answer (hostRead s r))
      | none => .next (s.answer .err)
    else .next (s.answer .err)
  | .write width off d =>
    if width = .bits32 then
      match hostRegAt off with
      | some r => hostWrite s d r
      | none => .next (s.answer .err)
    else .next (s.answer .err)

/-- The next transaction of the host, if any, carried out; with none the unit does nothing (R9, R117; DESIGN CHOICE,
safe: log 5). -/
def serveHost (s : State) : Host.Outcome State Fault Refusal :=
  match s.pending with
  | [] => .next s
  | t :: rest => transact { s with pending := rest } t

/-! ## The bus side (spec/20_memory.md R30, R37) -/

/-- A bus access of the host's platform: an address, a width, and for a write its datum. -/
inductive BusAccess where
  | read (width : Width) (address : Nat)
  | write (width : Width) (address : Nat) (data : HostWord)
  deriving DecidableEq, Repr

/-- The offset of a bus address inside `BASE .. BASE+0x3FF`, none outside (R30). -/
def windowOffset (address : Nat) : Option Offset :=
  if Config.base ≤ address ∧ address < Config.base + 1024 then
    some (BitVec.ofNat 10 (address - Config.base))
  else none

/-- The transaction of the unit a bus access is; outside the window it is none at all (R30). -/
def transactionOf : BusAccess → Option Transaction
  | .read width address => (windowOffset address).map (.read width)
  | .write width address d => (windowOffset address).map (.write width · d)

/-- The host issues a bus access: it joins the transactions to come, last, if it is for the unit (R30, R41). -/
def State.issue (s : State) (a : BusAccess) : State :=
  match transactionOf a with
  | some t => { s with pending := s.pending ++ [t] }
  | none => s

/-- The host's next transaction is the 32-bit write of the command word `c` to CMD, and no fault is latched, so that
the next step executes `c` (R24, R58, R106; log 9). -/
def State.withCommand (s : State) (c : HostWord) : State :=
  { s.clearFault with pending := .write .bits32 cmdOffset c :: s.pending }

end Sys2Proof.Machine
end

