-- ==== Sys2Proof/Machine/Step.lean ====
section
/-! DEFINITION. One step of the machine: one host transaction (spec/00_scope.md R9, spec/20_memory.md R36). -/

namespace Sys2Proof.Machine

/-- One step (R9, R36). -/
def step (s : State) : Host.Outcome State Fault Refusal := serveHost s

/-- The state whose next step executes the table word `w` of `nbits` bits (bits above them zero): the unit fetches
nothing (R17), so the word is put as the data of the host's next CMD write (log 9). -/
def State.withFetchWord (s : State) (nbits w : Nat) : State :=
  s.withCommand (BitVec.ofNat 32 (w % 2 ^ nbits))

end Sys2Proof.Machine
end

