-- ==== Sys2Proof/Safety.lean ====
section
/-! DEFINITION. The terms claims are stated in: which words are commands, read off the fields; which registers a command
names and which causes it can raise; what two states agree on; and the invariants of the machine. -/

namespace Sys2Proof

/-- The words that are commands, by their fields: the complement of R53, format by format (R47, R49, R51). -/
def LegalFields (f : Fields) : Prop :=
  (f.op = 0x01 ∧ f.f2 = 0 ∧ f.f3 = 0 ∧ f.f4 = 0 ∧ f.fn.toNat ≤ 8) ∨
  (f.op ∈ [0x10, 0x11, 0x12, 0x13, 0x15] ∧ f.f4 = 0 ∧ f.fn = 0) ∨
  (f.op = 0x14 ∧ f.fn.toNat ≤ 1) ∨
  (f.op ∈ [0x16, 0x17, 0x20, 0x21, 0x33] ∧ f.f3 = 0 ∧ f.f4 = 0 ∧ f.fn = 0) ∨
  (f.op = 0x30 ∧ f.f1 ≠ f.f2 ∧ f.f4 = 0 ∧ f.fn = 0) ∨
  (f.op = 0x32 ∧ f.f1 ≠ f.f2 ∧ f.fn.toNat ≤ 1) ∨
  (f.op ∈ [0x31, 0x34] ∧ f.f1 = 0 ∧ f.f4 = 0 ∧ f.fn = 0) ∨
  (f.op = 0x35 ∧ f.f1 = 0 ∧ f.f2 = 0 ∧ f.f3 = 0 ∧ f.f4 = 0 ∧ f.fn = 0)

/-- The destination registers a command names (R47). -/
def Instr.destinations : Instr → List Reg
  | .ldc rd _ => [rd]
  | .addw rd _ _ => [rd]
  | .subw rd _ _ => [rd]
  | .mulw rd _ _ => [rd]
  | .mulhw rd _ _ => [rd]
  | .muldivF rd _ _ _ => [rd]
  | .muldivC rd _ _ _ => [rd]
  | .divru rd _ _ => [rd]
  | .msb rd _ => [rd]
  | .lsb rd _ => [rd]
  | .t2p rd _ => [rd]
  | .p2t rd _ => [rd]
  | .bmpos rd rd2 _ => [rd, rd2]
  | .bmflip _ _ => []
  | .bmnextGt rd rd2 _ _ => [rd, rd2]
  | .bmnextLe rd rd2 _ _ => [rd, rd2]
  | .bmld rd _ => [rd]
  | .bmst _ _ => []
  | .bmclr => []

/-- The source registers a command names (R47). -/
def Instr.sources : Instr → List Reg
  | .ldc _ _ => []
  | .addw _ rs1 rs2 => [rs1, rs2]
  | .subw _ rs1 rs2 => [rs1, rs2]
  | .mulw _ rs1 rs2 => [rs1, rs2]
  | .mulhw _ rs1 rs2 => [rs1, rs2]
  | .muldivF _ rs1 rs2 rs3 => [rs1, rs2, rs3]
  | .muldivC _ rs1 rs2 rs3 => [rs1, rs2, rs3]
  | .divru _ rs1 rs2 => [rs1, rs2]
  | .msb _ rs1 => [rs1]
  | .lsb _ rs1 => [rs1]
  | .t2p _ rs1 => [rs1]
  | .p2t _ rs1 => [rs1]
  | .bmpos _ _ rs1 => [rs1]
  | .bmflip rs1 rs2 => [rs1, rs2]
  | .bmnextGt _ _ rs1 rs2 => [rs1, rs2]
  | .bmnextLe _ _ rs1 rs2 => [rs1, rs2]
  | .bmld _ rs1 => [rs1]
  | .bmst rs1 rs2 => [rs1, rs2]
  | .bmclr => []

/-- Whether a command writes the bitmap memory (R38). -/
def Instr.writesBitmap : Instr → Bool
  | .ldc _ _ => false
  | .addw _ _ _ => false
  | .subw _ _ _ => false
  | .mulw _ _ _ => false
  | .mulhw _ _ _ => false
  | .muldivF _ _ _ _ => false
  | .muldivC _ _ _ _ => false
  | .divru _ _ _ => false
  | .msb _ _ => false
  | .lsb _ _ => false
  | .t2p _ _ => false
  | .p2t _ _ => false
  | .bmpos _ _ _ => false
  | .bmflip _ _ => true
  | .bmnextGt _ _ _ _ => false
  | .bmnextLe _ _ _ _ => false
  | .bmld _ _ => false
  | .bmst _ _ => true
  | .bmclr => true

namespace Machine

/-- The causes a command can raise (R101). -/
def causesOf : Instr → List Cause
  | .ldc _ _ => []
  | .addw _ _ _ => []
  | .subw _ _ _ => []
  | .mulw _ _ _ => []
  | .mulhw _ _ _ => []
  | .muldivF _ _ _ _ => [.divZero, .unrepresentable]
  | .muldivC _ _ _ _ => [.divZero, .unrepresentable]
  | .divru _ _ _ => [.divZero]
  | .msb _ _ => [.zeroScan]
  | .lsb _ _ => [.zeroScan]
  | .t2p _ _ => [.tickRange]
  | .p2t _ _ => [.priceRange]
  | .bmpos _ _ _ => [.tickRange]
  | .bmflip _ _ => [.spacingRange, .tickMisaligned, .tickRange]
  | .bmnextGt _ _ _ _ => [.spacingRange, .tickRange]
  | .bmnextLe _ _ _ _ => [.spacingRange, .tickRange]
  | .bmld _ _ => [.bmIndexRange]
  | .bmst _ _ => [.bmIndexRange]
  | .bmclr => []

/-! ## What two states agree on -/

/-- Every register but those listed holds what it held. -/
def SameRegsExcept (ds : List Reg) (s t : State) : Prop := ∀ r, r ∉ ds → t.reg r = s.reg r

/-- Every bitmap word reads as it did. -/
def SameBitmap (s t : State) : Prop := ∀ w, t.bmRead w = s.bmRead w

/-- FAULT, FCAUSE and FCMD are as they were. -/
def SameLatch (s t : State) : Prop := t.fault = s.fault ∧ t.fcause = s.fcause ∧ t.fcmd = s.fcmd

/-- The host's side of the port is as it was. -/
def SameHostSide (s t : State) : Prop := t.pending = s.pending ∧ t.response = s.response

/-- Nothing but the listed registers may differ: the frame of a command that stores nothing in the bitmap. -/
def ChangesOnlyRegs (ds : List Reg) (s t : State) : Prop :=
  SameRegsExcept ds s t ∧ SameBitmap s t ∧ SameLatch s t ∧ SameHostSide s t

/-- Nothing but bitmap word `k` may differ: the frame of a command that stores one word. -/
def ChangesOnlyWord (k : WordIndex) (s t : State) : Prop :=
  SameRegsExcept [] s t ∧ (∀ w, w ≠ k → t.bmRead w = s.bmRead w) ∧ SameLatch s t ∧ SameHostSide s t

/-- Nothing of the spec's own state differs (R10). -/
def SameUnit (s t : State) : Prop := t.x = s.x ∧ t.bm = s.bm ∧ SameLatch s t

/-- The command takes the fault `cause`: its own word is recorded and nothing else of the machine changes (R103). -/
def FaultsWith (i : Instr) (s : State) (cause : Cause) : Prop :=
  ∃ t, exec i s = .next t ∧ t.fault = true ∧ t.fcause = cause ∧ t.fcmd = encode i ∧
    t.x = s.x ∧ t.bm = s.bm ∧ SameHostSide s t

/-- The transaction has been answered `r` and had no effect on the unit. -/
def AnsweredWithoutEffect (s t : State) (r : Response) (rest : List Transaction) : Prop :=
  SameUnit s t ∧ t.pending = rest ∧ t.response = some r

/-! ## Invariants -/

/-- What FCAUSE and FCMD hold (R20, R21, R100, R101): with FAULT = 0 both are 0; with FAULT = 1 FCMD holds the faulting
word, which is no command for ILLEGAL_CMD and else a command that can raise the recorded cause. -/
def LatchConsistent (s : State) : Prop :=
  (s.fault = false → s.fcause = .noFault ∧ s.fcmd = 0) ∧
  (s.fault = true →
    match decode s.fcmd with
    | .error _ => s.fcause = .illegalCmd
    | .ok i => s.fcause ∈ causesOf i)

/-- The bitmap is in canonical form (log 3). -/
def BitmapCanonical (s : State) : Prop := s.bm.wf = true

end Machine

end Sys2Proof
end

