-- ==== Sys2Proof/Certificates/Slice0/Obligations.lean ====
section
/-! DEFINITION. The statements for the provers, from the numbered rules of spec/. Witnesses of their hypotheses are in
Sys2Proof/Tests/Slice0.lean. -/

open Sys2Proof Sys2Proof.Machine

/-! ## Encoding (spec/30_encoding.md) -/

/-- Every well-formed command is decoded from its own word (R46, R47, R49, R50): no operand bit is dropped. -/
def Obligations.DecodeOfEncode : Prop :=
  ∀ i : Instr, i.wellFormed = true → decode (encode i) = .ok i

/-- A word that decodes is the word of the command it decodes to, which is well-formed: so FCMD, recorded as the
command's encoding, is the word written to CMD (log 7). -/
def Obligations.EncodeOfDecode : Prop :=
  ∀ (c : HostWord) (i : Instr), decode c = .ok i → encode i = c ∧ i.wellFormed = true

/-- No word selects two rows of the opcode table (R49). -/
def Obligations.OpcodeRowsAreExclusive : Prop :=
  opcodeTable.Pairwise fun p q => ∀ c : HostWord, ¬ (p.selects c = true ∧ q.selects c = true)

/-- The decoder accepts exactly the words whose fields are those of a command, listed format by format (R47, R53). -/
def Obligations.DecodeAcceptsExactlyLegalWords : Prop :=
  ∀ c : HostWord, (∃ i, decode c = .ok i) ↔ LegalFields (fieldsOf c)

/-- Words of each family, written out in the spec, decode to their commands (R56 and the examples of the rules). -/
def Obligations.SampleWordsDecode : Prop :=
  decode 0x01500002 = .ok (.ldc 5 .q96) ∧ decode 0x10012000 = .ok (.addw 0 1 2) ∧
  decode 0x14012301 = .ok (.muldivC 0 1 2 3) ∧ decode 0x20010000 = .ok (.t2p 0 1) ∧
  decode 0x31023000 = .ok (.bmflip 2 3) ∧ decode 0x32012301 = .ok (.bmnextLe 0 1 2 3) ∧
  decode 0x32012300 = .ok (.bmnextGt 0 1 2 3) ∧ decode 0x35000000 = .ok .bmclr

/-! ## Steps, the fault latch and the host's window -/

/-- A step whose next transaction writes a word that decodes to `i` is `exec i`, on the state from which that
transaction is gone and in which it is answered OK (R24, R36, R50). -/
def Obligations.StepExecutesDecodedCommand : Prop :=
  ∀ (s : State) (c : HostWord) (i : Instr) (rest : List Transaction),
    s.pending = .write .bits32 0x200 c :: rest → s.fault = false → decode c = .ok i →
    step s = exec i { s with pending := rest, response := some .ok }

/-- A word that is no command, written to CMD, takes ILLEGAL_CMD and changes nothing else, whatever the registers hold
(R53); the write is answered OK. -/
def Obligations.IllegalWordFaults : Prop :=
  ∀ (s : State) (c : HostWord) (rest : List Transaction),
    s.pending = .write .bits32 0x200 c :: rest → s.fault = false → ¬ LegalFields (fieldsOf c) →
    ∃ t, step s = .next t ∧ t.fault = true ∧ t.fcause = .illegalCmd ∧ t.fcmd = c ∧ t.x = s.x ∧ t.bm = s.bm ∧
      t.pending = rest ∧ t.response = some .ok

/-- While FAULT = 1 a CMD write is answered OK and discarded, whatever its word (R106). -/
def Obligations.LatchedFaultDiscardsCommands : Prop :=
  ∀ (s : State) (c : HostWord) (rest : List Transaction),
    s.pending = .write .bits32 0x200 c :: rest → s.fault = true →
    ∃ t, step s = .next t ∧ AnsweredWithoutEffect s t .ok rest

/-- Fault entry (R103): when a CMD write of `c` sets FAULT, `c` and a cause of 1 to 9 are recorded (ILLEGAL_CMD for a word
that is no command, else one the command can raise), no register and no bitmap word is written, and the write is
answered OK. -/
def Obligations.FaultEntryRecordsAndWritesNothing : Prop :=
  ∀ (s t : State) (c : HostWord) (rest : List Transaction),
    s.pending = .write .bits32 0x200 c :: rest → s.fault = false → step s = .next t → t.fault = true →
    t.fcmd = c ∧ t.fcause ≠ .noFault ∧
    (match decode c with
      | .error _ => t.fcause = .illegalCmd
      | .ok i => t.fcause ∈ causesOf i) ∧
    t.x = s.x ∧ t.bm = s.bm ∧ t.pending = rest ∧ t.response = some .ok

/-- A command raises only the causes listed for it (R101). -/
def Obligations.CommandsRaiseOnlyTheirCauses : Prop :=
  ∀ (i : Instr) (s t : State), i.wellFormed = true → s.fault = false → exec i s = .next t → t.fault = true →
    t.fcause ∈ causesOf i

/-- FAULT is set only by a CMD write (R19). -/
def Obligations.LatchIsSetOnlyByCommands : Prop :=
  ∀ s t : State, step s = .next t → s.fault = false → t.fault = true →
    ∃ c rest, s.pending = .write .bits32 0x200 c :: rest

/-- FAULT is cleared only by a write to CTRL with bit 0 set (R19, R108; reset is no step, R115), and while it stays set
FCAUSE and FCMD keep the first fault (R106). -/
def Obligations.LatchIsClearedOnlyByCtrl : Prop :=
  ∀ s t : State, step s = .next t → s.fault = true →
    (t.fault = false ∧ ∃ d rest, s.pending = .write .bits32 0x210 d :: rest ∧ d.getLsbD 0 = true) ∨
    (t.fault = true ∧ t.fcause = s.fcause ∧ t.fcmd = s.fcmd)

/-- A write to CTRL clears the latch if bit 0 is set and else does nothing; the other bits are ignored (R22, R108). -/
def Obligations.CtrlBitZeroClearsLatch : Prop :=
  ∀ (s : State) (d : HostWord) (rest : List Transaction), s.pending = .write .bits32 0x210 d :: rest →
    (d.toNat % 2 = 1 → ∃ t, step s = .next t ∧ t.fault = false ∧ t.fcause = .noFault ∧ t.fcmd = 0 ∧
      t.x = s.x ∧ t.bm = s.bm ∧ t.pending = rest ∧ t.response = some .ok) ∧
    (d.toNat % 2 = 0 → ∃ t, step s = .next t ∧ AnsweredWithoutEffect s t .ok rest)

/-- The eight limbs the host reads at `32*i + 4*j` make up the register, limb 0 the least significant (R32). -/
def Obligations.LimbsSumToRegister : Prop :=
  ∀ (s : State) (i : Reg) (rest : List Transaction), ∃ d : Fin 8 → HostWord,
    (∀ j : Fin 8, step { s with pending := .read .bits32 (BitVec.ofNat 10 (32 * i.val + 4 * j.val)) :: rest } =
      .next { s with pending := rest, response := some (.okData (d j)) }) ∧
    s.u i = ∑ j : Fin 8, (d j).toNat * 2 ^ (32 * j.val)

/-- A limb write replaces exactly its 32 bits of one register and changes nothing else of the unit (R31). -/
def Obligations.LimbWriteReplacesItsBits : Prop :=
  ∀ (s : State) (i : Reg) (j : Fin 8) (d : HostWord) (rest : List Transaction),
    s.pending = .write .bits32 (BitVec.ofNat 10 (32 * i.val + 4 * j.val)) d :: rest →
    ∃ t, step s = .next t ∧
      (∀ b < 256, (t.reg i).getLsbD b = if b / 32 = j.val then d.getLsbD (b % 32) else (s.reg i).getLsbD b) ∧
      SameRegsExcept [i] s t ∧ t.bm = s.bm ∧ SameLatch s t ∧ t.pending = rest ∧ t.response = some .ok

/-- What the host reads from STATUS, FCAUSE, FCMD and ID, whether or not a fault is latched (R19, R20, R21, R23, R100,
R107). -/
def Obligations.ControlRegisterReads : Prop :=
  ∀ (s : State) (off : Offset) (rest : List Transaction), s.pending = .read .bits32 off :: rest →
    (off = 0x204 → ∃ t d, step s = .next t ∧ AnsweredWithoutEffect s t (.okData d) rest ∧
      d.toNat = if s.fault then 1 else 0) ∧
    (off = 0x208 → ∃ t d, step s = .next t ∧ AnsweredWithoutEffect s t (.okData d) rest ∧
      d.toNat = match s.fcause with
        | .noFault => 0
        | .illegalCmd => 1
        | .divZero => 2
        | .unrepresentable => 3
        | .zeroScan => 4
        | .tickRange => 5
        | .priceRange => 6
        | .tickMisaligned => 7
        | .spacingRange => 8
        | .bmIndexRange => 9) ∧
    (off = 0x20C → ∃ t, step s = .next t ∧ AnsweredWithoutEffect s t (.okData s.fcmd) rest) ∧
    (off = 0x214 → ∃ t, step s = .next t ∧ AnsweredWithoutEffect s t (.okData 0x574D4401) rest)

/-- An access of another width than 32 bits, or at an offset that is no multiple of 4, is answered ERR and has no effect
(R33). -/
def Obligations.WrongWidthOrAlignmentIsErr : Prop :=
  ∀ (s : State) (a : Transaction) (rest : List Transaction), s.pending = a :: rest →
    (match a with
      | .read w off => w ≠ .bits32 ∨ off.toNat % 4 ≠ 0
      | .write w off _ => w ≠ .bits32 ∨ off.toNat % 4 ≠ 0) →
    ∃ t, step s = .next t ∧ AnsweredWithoutEffect s t .err rest

/-- An access that the register map does not permit (a write to STATUS, FCAUSE, FCMD or ID; a read of CMD or CTRL; any
access to a reserved offset) is answered ERR and has no effect; the fault latch is not set (R34). -/
def Obligations.ForbiddenAccessIsErr : Prop :=
  ∀ (s : State) (a : Transaction) (rest : List Transaction), s.pending = a :: rest →
    (match a with
      | .read _ off => off = 0x200 ∨ off = 0x210 ∨ 0x218 ≤ off.toNat
      | .write _ off _ => off = 0x204 ∨ off = 0x208 ∨ off = 0x20C ∨ off = 0x214 ∨ 0x218 ≤ off.toNat) →
    ∃ t, step s = .next t ∧ AnsweredWithoutEffect s t .err rest

/-- No host read changes the unit (R35). -/
def Obligations.HostReadsChangeNothing : Prop :=
  ∀ (s : State) (w : Width) (off : Offset) (rest : List Transaction), s.pending = .read w off :: rest →
    ∃ t r, step s = .next t ∧ AnsweredWithoutEffect s t r rest

/-- The unit's window is the 1024 bytes from BASE, a multiple of 1024; a bus access inside it becomes the transaction at
its offset, one outside it is none of the unit's (R30, R37). How the accesses wait their turn is the model's (log 4). -/
def Obligations.BusWindowIsAtBase : Prop :=
  1024 ∣ Config.base ∧
  ∀ (s : State) (w : Width) (d : HostWord),
    (∀ off : Offset,
      s.issue (.read w (Config.base + off.toNat)) = { s with pending := s.pending ++ [.read w off] } ∧
      s.issue (.write w (Config.base + off.toNat) d) = { s with pending := s.pending ++ [.write w off d] }) ∧
    (∀ address : Nat, address < Config.base ∨ Config.base + 0x3FF < address →
      s.issue (.read w address) = s ∧ s.issue (.write w address d) = s)

/-- Nothing stops the unit: every step, whatever the transaction and the state, answers a next state (R123, R124); and
it does nothing of its own: with no transaction to come the step answers the same state (R9, R117, R124; that there is
such a step at all is the model's choice, log 5). -/
def Obligations.StepAlwaysAnswers : Prop :=
  ∀ s : State, (∃ t, step s = .next t) ∧ (s.pending = [] → step s = .next s)

/-- Every step keeps the bitmap in canonical form: a property of how the model holds it (log 3). -/
def Obligations.BitmapStaysCanonical : Prop :=
  ∀ s t : State, BitmapCanonical s → step s = .next t → BitmapCanonical t

/-- Every step keeps FAULT, FCAUSE and FCMD consistent (R20, R21, R101, R103). -/
def Obligations.LatchStaysConsistent : Prop :=
  ∀ s t : State, LatchConsistent s → step s = .next t → LatchConsistent t

/-- The invariants hold after reset, whatever registers and bitmap then hold (R28, R125). -/
def Obligations.ResetMeetsInvariants : Prop :=
  (∀ (x : Vector Word 16) (bm : Memory), bm.wf = true →
    BitmapCanonical (State.resetWith x bm) ∧ LatchConsistent (State.resetWith x bm)) ∧
  BitmapCanonical State.reset ∧ LatchConsistent State.reset

/-- After reset the latch is clear, and the registers and the bitmap hold anything (R116); the machine's own reset
state is one such state (what it holds there is the model's choice: log 1, log 2). -/
def Obligations.ResetClearsOnlyTheLatch : Prop :=
  (∀ (x : Vector Word 16) (bm : Memory),
    (State.resetWith x bm).fault = false ∧ (State.resetWith x bm).fcause = .noFault ∧
    (State.resetWith x bm).fcmd = 0 ∧ (State.resetWith x bm).x = x ∧ (State.resetWith x bm).bm = bm) ∧
  ∃ x bm, State.reset = State.resetWith x bm

/-! ## Whole-machine rules over all commands -/

/-- No command writes a register it does not name as a destination (R14), none touches the host's side, and only
BMFLIP, BMST and BMCLR write the bitmap (R38). -/
def Obligations.CommandsWriteOnlyWhatTheyName : Prop :=
  ∀ (i : Instr) (s t : State), exec i s = .next t →
    SameRegsExcept i.destinations s t ∧ SameHostSide s t ∧ (i.writesBitmap = false → t.bm = s.bm)

/-- No command reads a register it does not name as a source (R14): with those registers and the bitmap the same, it
faults alike, and it leaves the same in its destinations and in the bitmap. -/
def Obligations.CommandsReadOnlyWhatTheyName : Prop :=
  ∀ (i : Instr) (s s' t t' : State), s.fault = false → s'.fault = false →
    (∀ r ∈ i.sources, s.reg r = s'.reg r) → s.bm = s'.bm → exec i s = .next t → exec i s' = .next t' →
    t.fault = t'.fault ∧ (t.fault = true → t.fcause = t'.fcause) ∧
    (t.fault = false → ∀ r ∈ i.destinations, t.reg r = t'.reg r) ∧ t.bm = t'.bm

/-! ## Constants (spec/41_fixedpoint_const.md) -/

/-- LDC writes the ROM entry its selector names and changes nothing else; a selector above 8, or an unused field that is
not zero, is no command (R73). -/
def Obligations.LdcLoadsRomEntry : Prop :=
  (∀ (rd : Reg) (k : RomEntry) (s : State),
    decode (wordOfFields ⟨0x01, rd, 0, 0, 0, romSelector k⟩) = .ok (.ldc rd k) ∧
    ∃ t, exec (.ldc rd k) s = .next t ∧ t.reg rd = enc (romValue k) ∧ ChangesOnlyRegs [rd] s t) ∧
  ∀ f : Fields, f.op = 0x01 → (f.f2 ≠ 0 ∨ f.f3 ≠ 0 ∨ f.f4 ≠ 0 ∨ 8 < f.fn.toNat) →
    ∀ i, decode (wordOfFields f) ≠ .ok i

/-- The nine selectors and the values LDC gives for them, read back by the rule's view (R74; its values of Q96, Q128 and
MAX_U256 are marked derived there). -/
def Obligations.LdcGivesTheNineConstants : Prop :=
  ∀ (rd : Reg) (s : State), ∀ k ∈ List.range 9, ∃ e t,
    romEntryOf (BitVec.ofNat 8 k) = some e ∧ exec (.ldc rd e) s = .next t ∧
    (k = 0 → t.u rd = 0) ∧ (k = 1 → t.u rd = 1) ∧ (k = 2 → t.u rd = 2 ^ 96) ∧ (k = 3 → t.u rd = 2 ^ 128) ∧
    (k = 4 → t.u rd = 2 ^ 256 - 1) ∧ (k = 5 → t.u rd = 4295128739) ∧
    (k = 6 → t.u rd = 1461446703485210103287273052203988822378723970342) ∧
    (k = 7 → t.s rd = -887272) ∧ (k = 8 → t.s rd = 887272)

/-! ## Wide integers (spec/40_wideint.md) -/

/-- ADDW: the sum modulo 2^256; no fault for any operands; `rd` may be a source (R59). -/
def Obligations.AddwWraps : Prop :=
  ∀ (rd rs1 rs2 : Reg) (s : State),
    decode (wordOfFields ⟨0x10, rd, rs1, rs2, 0, 0⟩) = .ok (.addw rd rs1 rs2) ∧
    ∃ t, exec (.addw rd rs1 rs2) s = .next t ∧ t.u rd = (s.u rs1 + s.u rs2) % 2 ^ 256 ∧ ChangesOnlyRegs [rd] s t

/-- SUBW: the difference modulo 2^256, the floor remainder (R60). -/
def Obligations.SubwWraps : Prop :=
  ∀ (rd rs1 rs2 : Reg) (s : State),
    decode (wordOfFields ⟨0x11, rd, rs1, rs2, 0, 0⟩) = .ok (.subw rd rs1 rs2) ∧
    ∃ t, exec (.subw rd rs1 rs2) s = .next t ∧ (t.u rd : Int) = ((s.u rs1 : Int) - s.u rs2) % 2 ^ 256 ∧
      ChangesOnlyRegs [rd] s t

/-- MULW: the low 256 bits of the product (R61). -/
def Obligations.MulwGivesLowWord : Prop :=
  ∀ (rd rs1 rs2 : Reg) (s : State),
    decode (wordOfFields ⟨0x12, rd, rs1, rs2, 0, 0⟩) = .ok (.mulw rd rs1 rs2) ∧
    ∃ t, exec (.mulw rd rs1 rs2) s = .next t ∧ t.u rd = s.u rs1 * s.u rs2 % 2 ^ 256 ∧ ChangesOnlyRegs [rd] s t

/-- MULHW: the high 256 bits of the product (R62). -/
def Obligations.MulhwGivesHighWord : Prop :=
  ∀ (rd rs1 rs2 : Reg) (s : State),
    decode (wordOfFields ⟨0x13, rd, rs1, rs2, 0, 0⟩) = .ok (.mulhw rd rs1 rs2) ∧
    ∃ t, exec (.mulhw rd rs1 rs2) s = .next t ∧ t.u rd = s.u rs1 * s.u rs2 / 2 ^ 256 ∧ ChangesOnlyRegs [rd] s t

/-- MULHW and MULW together give the exact product, and a high word of `d` or more is what makes MULDIV.F by a non-zero
`d` fault UNREPRESENTABLE (R72). -/
def Obligations.ProductHalvesAreExact : Prop :=
  ∀ (rd rs1 rs2 rs3 : Reg) (s : State), ∃ hi lo,
    exec (.mulhw rd rs1 rs2) s = .next hi ∧ exec (.mulw rd rs1 rs2) s = .next lo ∧
    hi.u rd * 2 ^ 256 + lo.u rd = s.u rs1 * s.u rs2 ∧
    (s.fault = false → s.u rs3 ≠ 0 →
      (s.u rs3 ≤ hi.u rd ↔ FaultsWith (.muldivF rd rs1 rs2 rs3) s .unrepresentable))

/-- MULDIV.F: the floor of the exact `a*b/d`; DIV_ZERO first, then UNREPRESENTABLE when it does not fit (R63). -/
def Obligations.MuldivFloors : Prop :=
  ∀ (rd rs1 rs2 rs3 : Reg) (s : State),
    decode (wordOfFields ⟨0x14, rd, rs1, rs2, rs3, 0⟩) = .ok (.muldivF rd rs1 rs2 rs3) ∧
    (s.u rs3 = 0 → FaultsWith (.muldivF rd rs1 rs2 rs3) s .divZero) ∧
    (s.u rs3 ≠ 0 → 2 ^ 256 ≤ s.u rs1 * s.u rs2 / s.u rs3 →
      FaultsWith (.muldivF rd rs1 rs2 rs3) s .unrepresentable) ∧
    (s.u rs3 ≠ 0 → s.u rs1 * s.u rs2 / s.u rs3 < 2 ^ 256 →
      ∃ t, exec (.muldivF rd rs1 rs2 rs3) s = .next t ∧ t.u rd = s.u rs1 * s.u rs2 / s.u rs3 ∧
        ChangesOnlyRegs [rd] s t)

/-- MULDIV.C: the ceiling of the exact `a*b/d`; DIV_ZERO first, then UNREPRESENTABLE exactly when the ceiling does not
fit, the increment included (R64). -/
def Obligations.MuldivCeils : Prop :=
  ∀ (rd rs1 rs2 rs3 : Reg) (s : State),
    decode (wordOfFields ⟨0x14, rd, rs1, rs2, rs3, 1⟩) = .ok (.muldivC rd rs1 rs2 rs3) ∧
    (s.u rs3 = 0 → FaultsWith (.muldivC rd rs1 rs2 rs3) s .divZero) ∧
    (s.u rs3 ≠ 0 → 2 ^ 256 ≤ (s.u rs1 * s.u rs2 + s.u rs3 - 1) / s.u rs3 →
      FaultsWith (.muldivC rd rs1 rs2 rs3) s .unrepresentable) ∧
    (s.u rs3 ≠ 0 → (s.u rs1 * s.u rs2 + s.u rs3 - 1) / s.u rs3 < 2 ^ 256 →
      ∃ t, exec (.muldivC rd rs1 rs2 rs3) s = .next t ∧
        t.u rd = (s.u rs1 * s.u rs2 + s.u rs3 - 1) / s.u rs3 ∧ ChangesOnlyRegs [rd] s t)

/-- Exactness of MULDIV.F (R69): for every run of it that does not fault, `q*d <= a*b < (q+1)*d`. -/
def Obligations.MuldivFloorIsExact : Prop :=
  ∀ (rd rs1 rs2 rs3 : Reg) (s t : State), s.fault = false → exec (.muldivF rd rs1 rs2 rs3) s = .next t →
    t.fault = false →
    t.u rd * s.u rs3 ≤ s.u rs1 * s.u rs2 ∧ s.u rs1 * s.u rs2 < (t.u rd + 1) * s.u rs3

/-- The two rounding modes (R70): MULDIV.C faults when MULDIV.F does, and also when the floor is 2^256 - 1 with a
remainder; else the results differ by 1 exactly when there is a remainder. -/
def Obligations.RoundingModesDifferByRemainder : Prop :=
  ∀ (rd rs1 rs2 rs3 : Reg) (s f c : State), s.fault = false →
    exec (.muldivF rd rs1 rs2 rs3) s = .next f → exec (.muldivC rd rs1 rs2 rs3) s = .next c →
    (f.fault = true → c.fault = true) ∧
    (f.fault = false →
      (c.fault = true ↔
        s.u rs1 * s.u rs2 / s.u rs3 = 2 ^ 256 - 1 ∧ s.u rs1 * s.u rs2 % s.u rs3 ≠ 0)) ∧
    (f.fault = false → c.fault = false →
      c.u rd = f.u rd + if s.u rs1 * s.u rs2 % s.u rs3 ≠ 0 then 1 else 0)

/-- DIVRU: the ceiling of `n/y`, the sum not wrapped; DIV_ZERO for a zero divisor (R65). -/
def Obligations.DivruCeils : Prop :=
  ∀ (rd rs1 rs2 : Reg) (s : State),
    decode (wordOfFields ⟨0x15, rd, rs1, rs2, 0, 0⟩) = .ok (.divru rd rs1 rs2) ∧
    (s.u rs2 = 0 → FaultsWith (.divru rd rs1 rs2) s .divZero) ∧
    (s.u rs2 ≠ 0 → ∃ t, exec (.divru rd rs1 rs2) s = .next t ∧
      t.u rd = (s.u rs1 + s.u rs2 - 1) / s.u rs2 ∧ ChangesOnlyRegs [rd] s t)

/-- MSB: the `i` with `2^i <= v < 2^(i+1)`; ZERO_SCAN for zero (R66). -/
def Obligations.MsbFindsHighestBit : Prop :=
  ∀ (rd rs1 : Reg) (s : State),
    decode (wordOfFields ⟨0x16, rd, rs1, 0, 0, 0⟩) = .ok (.msb rd rs1) ∧
    (s.u rs1 = 0 → FaultsWith (.msb rd rs1) s .zeroScan) ∧
    (s.u rs1 ≠ 0 → ∃ t, exec (.msb rd rs1) s = .next t ∧
      2 ^ t.u rd ≤ s.u rs1 ∧ s.u rs1 < 2 ^ (t.u rd + 1) ∧ ChangesOnlyRegs [rd] s t)

/-- LSB: the greatest `i` such that `2^i` divides `v`; ZERO_SCAN for zero (R67). -/
def Obligations.LsbFindsLowestBit : Prop :=
  ∀ (rd rs1 : Reg) (s : State),
    decode (wordOfFields ⟨0x17, rd, rs1, 0, 0, 0⟩) = .ok (.lsb rd rs1) ∧
    (s.u rs1 = 0 → FaultsWith (.lsb rd rs1) s .zeroScan) ∧
    (s.u rs1 ≠ 0 → ∃ t, exec (.lsb rd rs1) s = .next t ∧
      2 ^ t.u rd ∣ s.u rs1 ∧ (∀ j, 2 ^ j ∣ s.u rs1 → j ≤ t.u rd) ∧ ChangesOnlyRegs [rd] s t)

/-! ## Tick math (spec/42_tickmath.md) -/

/-- T2P, step by step (R78) with the twenty constants `K` of the ladder written out (R77; from general knowledge, G1, log 10):
the ratios `r 0` to `r 19` truncate in ascending order of the bits of `|t|`, a positive tick is inverted, the last shift
rounds up. -/
def Obligations.T2pClimbsTheLadder : Prop :=
  ∃ K : Nat → Nat, (List.range 20).map K =
    [0xfffcb933bd6fad37aa2d162d1a594001, 0xfff97272373d413259a46990580e213a,
     0xfff2e50f5f656932ef12357cf3c7fdcc, 0xffe5caca7e10e4e61c3624eaa0941cd0,
     0xffcb9843d60f6159c9db58835c926644, 0xff973b41fa98c081472e6896dfb254c0,
     0xff2ea16466c96a3843ec78b326b52861, 0xfe5dee046a99a2a811c461f1969c3053,
     0xfcbe86c7900a88aedcffc83b479aa3a4, 0xf987a7253ac413176f2b074cf7815e54,
     0xf3392b0822b70005940c7a398e4b70f3, 0xe7159475a2c29b7443b29c7fa6e889d9,
     0xd097f3bdfd2022b8845ad8f792aa5825, 0xa9f746462d870fdf8a65dc1f90e061e5,
     0x70d869a156d2a1b890bb3df62baf32f7, 0x31be135f97d08fd981231505542fcfa6,
     0x9aa508b5b7a84e1c677de54f3e99bc9, 0x5d6af8dedb81196699c329225ee604,
     0x2216e584f5fa1ea926041bedfe98, 0x48a170391f7dc42444e8fa2] ∧
  ∀ (rd rs1 : Reg) (s : State),
    decode (wordOfFields ⟨0x20, rd, rs1, 0, 0, 0⟩) = .ok (.t2p rd rs1) ∧
    (887272 < (s.s rs1).natAbs → FaultsWith (.t2p rd rs1) s .tickRange) ∧
    ((s.s rs1).natAbs ≤ 887272 → ∃ (r : Nat → Nat) (q : Nat) (t : State),
      r 0 = (if (s.s rs1).natAbs.testBit 0 then K 0 else 2 ^ 128) ∧
      (∀ k < 19, r (k + 1) =
        if (s.s rs1).natAbs.testBit (k + 1) then r k * K (k + 1) / 2 ^ 128 else r k) ∧
      q = (if 0 < s.s rs1 then (2 ^ 256 - 1) / r 19 else r 19) ∧
      exec (.t2p rd rs1) s = .next t ∧ t.u rd = (q + (2 ^ 32 - 1)) / 2 ^ 32 ∧ ChangesOnlyRegs [rd] s t)

/-- The three literal prices the source demands (R79). -/
def Obligations.T2pReferenceValues : Prop :=
  ∀ (rd rs1 : Reg) (s : State),
    (s.s rs1 = 0 → ∃ t, exec (.t2p rd rs1) s = .next t ∧ t.u rd = 79228162514264337593543950336) ∧
    (s.s rs1 = -887272 → ∃ t, exec (.t2p rd rs1) s = .next t ∧ t.u rd = 4295128739) ∧
    (s.s rs1 = 887272 → ∃ t, exec (.t2p rd rs1) s = .next t ∧
      t.u rd = 1461446703485210103287273052203988822378723970342)

/-- T2P is strictly increasing on the ticks, so its results stay between the two bounds (R80). -/
def Obligations.T2pIsStrictlyIncreasing : Prop :=
  ∀ (rd rs1 : Reg) (s s' : State), -887272 ≤ s.s rs1 → s.s rs1 < s'.s rs1 → s'.s rs1 ≤ 887272 →
    ∃ t t', exec (.t2p rd rs1) s = .next t ∧ exec (.t2p rd rs1) s' = .next t' ∧ t.u rd < t'.u rd ∧
      4295128739 ≤ t.u rd ∧ t'.u rd ≤ 1461446703485210103287273052203988822378723970342

/-- P2T, step by step (R82; its constants and its loop body are from general knowledge, G2, G3, log 10): PRICE_RANGE
outside `[MIN_SQRT_RATIO, MAX_SQRT_RATIO)`; else the mantissas `r`, the bits `f` and the logarithms `L` of the fourteen
iterations, the two candidates, and the choice by T2P of the upper one. -/
def Obligations.P2tComputesTheLogarithm : Prop :=
  ∀ (rd rs1 : Reg) (s : State),
    decode (wordOfFields ⟨0x21, rd, rs1, 0, 0, 0⟩) = .ok (.p2t rd rs1) ∧
    (s.u rs1 < 4295128739 ∨ 1461446703485210103287273052203988822378723970342 ≤ s.u rs1 →
      FaultsWith (.p2t rd rs1) s .priceRange) ∧
    (4295128739 ≤ s.u rs1 → s.u rs1 < 1461446703485210103287273052203988822378723970342 →
      ∃ (m : Nat) (r f : Nat → Nat) (L : Nat → Int) (lo hi : Int) (t : State),
        2 ^ m ≤ s.u rs1 * 2 ^ 32 ∧ s.u rs1 * 2 ^ 32 < 2 ^ (m + 1) ∧
        r 0 = (if 128 ≤ m then s.u rs1 * 2 ^ 32 / 2 ^ (m - 127) else s.u rs1 * 2 ^ 32 * 2 ^ (127 - m)) ∧
        L 0 = ((m : Int) - 128) * 2 ^ 64 ∧
        (∀ n < 14, f n = r n * r n / 2 ^ 127 / 2 ^ 128 ∧ f n ≤ 1 ∧
          r (n + 1) = r n * r n / 2 ^ 127 / 2 ^ f n ∧ L (n + 1) = L n + (f n : Int) * 2 ^ (63 - n)) ∧
        lo = (L 14 * 255738958999603826347141 - 3402992956809132418596140100660247210) / 2 ^ 128 ∧
        hi = (L 14 * 255738958999603826347141 + 291339464771989622907027621153398088495) / 2 ^ 128 ∧
        exec (.p2t rd rs1) s = .next t ∧
        t.s rd = (if lo = hi then lo else if sqrtRatioAt hi ≤ s.u rs1 then hi else lo) ∧
        ChangesOnlyRegs [rd] s t)

/-- P2T at the edges the rule names (R82, corner cases; G2, G3, log 10). -/
def Obligations.P2tEdgeValues : Prop :=
  ∀ (rd rs1 : Reg) (s : State),
    (s.u rs1 = 4295128739 → ∃ t, exec (.p2t rd rs1) s = .next t ∧ t.s rd = -887272) ∧
    (s.u rs1 = 2 ^ 96 - 1 → ∃ t, exec (.p2t rd rs1) s = .next t ∧ t.s rd = -1) ∧
    (s.u rs1 = 2 ^ 96 → ∃ t, exec (.p2t rd rs1) s = .next t ∧ t.s rd = 0) ∧
    (s.u rs1 = 1461446703485210103287273052203988822378723970341 →
      ∃ t, exec (.p2t rd rs1) s = .next t ∧ t.s rd = 887271)

/-- The result of P2T is always a tick in `[-887272, 887271]`, and the tick it gives to T2P is never out of T2P's range,
so that inner T2P needs no range check (R86; log 12). -/
def Obligations.P2tStaysInTickRange : Prop :=
  ∀ (rd rs1 : Reg) (s : State), 4295128739 ≤ s.u rs1 →
    s.u rs1 < 1461446703485210103287273052203988822378723970342 →
    (-887273 ≤ tickLow (s.u rs1) ∧ tickLow (s.u rs1) ≤ tickHigh (s.u rs1) ∧ -887272 ≤ tickHigh (s.u rs1) ∧
      tickHigh (s.u rs1) ≤ 887272) ∧
    ∃ t, exec (.p2t rd rs1) s = .next t ∧ -887272 ≤ t.s rd ∧ t.s rd ≤ 887271

/-- What P2T computes, without the algorithm (R83, from general knowledge, checked there but not proved: G4): the greatest
tick whose price is at most `p`. -/
def Obligations.P2tGivesTheGreatestTick : Prop :=
  ∀ (rd rs1 : Reg) (s : State), 4295128739 ≤ s.u rs1 →
    s.u rs1 < 1461446703485210103287273052203988822378723970342 →
    ∃ t, exec (.p2t rd rs1) s = .next t ∧ sqrtRatioAt (t.s rd) ≤ s.u rs1 ∧
      ∀ n : Int, t.s rd < n → n ≤ 887272 → s.u rs1 < sqrtRatioAt n

/-- Round trip (R84): P2T of T2P gives back every tick in `[-887272, 887271]`; at 887272 T2P gives MAX_SQRT_RATIO, which
P2T rejects. -/
def Obligations.RoundTripGivesBackTheTick : Prop :=
  ∀ (rd rd' rs1 : Reg) (s : State),
    (-887272 ≤ s.s rs1 → s.s rs1 ≤ 887271 →
      ∃ t u, exec (.t2p rd rs1) s = .next t ∧ exec (.p2t rd' rd) t = .next u ∧ u.s rd' = s.s rs1) ∧
    (s.s rs1 = 887272 → ∃ t, exec (.t2p rd rs1) s = .next t ∧ FaultsWith (.p2t rd' rd) t .priceRange)

/-! ## Tick bitmap (spec/43_tickbitmap.md) -/

/-- BMPOS: `c = 256*w + b` with `0 <= b <= 255`; TICK_RANGE outside `[-887272, 887272]`; `rd = rd2` is no command
(R87, R89). -/
def Obligations.BmposSplitsTheTick : Prop :=
  ∀ (rd rd2 rs1 : Reg) (s : State),
    decode (wordOfFields ⟨0x30, rd, rd2, rs1, 0, 0⟩) =
      (if rd = rd2 then .error .equalDestinations else .ok (.bmpos rd rd2 rs1)) ∧
    (rd ≠ rd2 → s.s rs1 < -887272 ∨ 887272 < s.s rs1 → FaultsWith (.bmpos rd rd2 rs1) s .tickRange) ∧
    (rd ≠ rd2 → -887272 ≤ s.s rs1 → s.s rs1 ≤ 887272 →
      ∃ t, exec (.bmpos rd rd2 rs1) s = .next t ∧ s.s rs1 = 256 * t.s rd + t.u rd2 ∧ t.u rd2 ≤ 255 ∧
        ChangesOnlyRegs [rd, rd2] s t)

/-- BMFLIP: SPACING_RANGE, TICK_MISALIGNED, TICK_RANGE in this order; else exactly bit `c mod 256` of word `c div 256`
is toggled, `c` the tick over the spacing, and nothing else changes (R90). -/
def Obligations.BmflipTogglesOneBit : Prop :=
  ∀ (rs1 rs2 : Reg) (s : State), BitmapCanonical s →
    decode (wordOfFields ⟨0x31, 0, rs1, rs2, 0, 0⟩) = .ok (.bmflip rs1 rs2) ∧
    (s.s rs2 < 1 ∨ 887272 < s.s rs2 → FaultsWith (.bmflip rs1 rs2) s .spacingRange) ∧
    (1 ≤ s.s rs2 → s.s rs2 ≤ 887272 → s.s rs1 % s.s rs2 ≠ 0 →
      FaultsWith (.bmflip rs1 rs2) s .tickMisaligned) ∧
    (1 ≤ s.s rs2 → s.s rs2 ≤ 887272 → s.s rs1 % s.s rs2 = 0 →
      (s.s rs1 / s.s rs2 < -887272 ∨ 887272 < s.s rs1 / s.s rs2) →
      FaultsWith (.bmflip rs1 rs2) s .tickRange) ∧
    (1 ≤ s.s rs2 → s.s rs2 ≤ 887272 → s.s rs1 % s.s rs2 = 0 →
      -887272 ≤ s.s rs1 / s.s rs2 → s.s rs1 / s.s rs2 ≤ 887272 →
      ∃ t, exec (.bmflip rs1 rs2) s = .next t ∧
        (∀ b < 256, (t.bmRead (wordIndex (s.s rs1 / s.s rs2 / 256))).getLsbD b =
          ((s.bmRead (wordIndex (s.s rs1 / s.s rs2 / 256))).getLsbD b ^^
            decide ((b : Int) = s.s rs1 / s.s rs2 % 256))) ∧
        ChangesOnlyWord (wordIndex (s.s rs1 / s.s rs2 / 256)) s t)

/-- Flipping the same tick twice restores the machine (R90, corner cases). -/
def Obligations.FlipTwiceRestores : Prop :=
  ∀ (rs1 rs2 : Reg) (s t u : State), BitmapCanonical s → s.fault = false →
    exec (.bmflip rs1 rs2) s = .next t → t.fault = false → exec (.bmflip rs1 rs2) t = .next u → u = s

/-- BMNEXT.LE: SPACING_RANGE, then TICK_RANGE; else the highest set bit `j` at or below the tick's own bit `b` gives
`(c - (b - j)) * sp` and 1, and no set bit there gives `(c - b) * sp` and 0, unclamped; `rd = rd2` is no command (R91). -/
def Obligations.BmnextLeSearchesDown : Prop :=
  ∀ (rd rd2 rs1 rs2 : Reg) (s : State) (c sp : Int) (b : Nat) (word : Word),
    sp = s.s rs2 → c = s.s rs1 / sp → (b : Int) = c % 256 → word = s.bmRead (wordIndex (c / 256)) →
    decode (wordOfFields ⟨0x32, rd, rd2, rs1, rs2, 1⟩) =
      (if rd = rd2 then .error .equalDestinations else .ok (.bmnextLe rd rd2 rs1 rs2)) ∧
    (rd ≠ rd2 → sp < 1 ∨ 887272 < sp → FaultsWith (.bmnextLe rd rd2 rs1 rs2) s .spacingRange) ∧
    (rd ≠ rd2 → 1 ≤ sp → sp ≤ 887272 → c < -887272 ∨ 887272 < c →
      FaultsWith (.bmnextLe rd rd2 rs1 rs2) s .tickRange) ∧
    (rd ≠ rd2 → 1 ≤ sp → sp ≤ 887272 → -887272 ≤ c → c ≤ 887272 →
      (∀ j ≤ b, word.getLsbD j = true → (∀ i, j < i → i ≤ b → word.getLsbD i = false) →
        ∃ t, exec (.bmnextLe rd rd2 rs1 rs2) s = .next t ∧ t.s rd = (c - (b - j)) * sp ∧ t.u rd2 = 1 ∧
          ChangesOnlyRegs [rd, rd2] s t) ∧
      ((∀ i ≤ b, word.getLsbD i = false) →
        ∃ t, exec (.bmnextLe rd rd2 rs1 rs2) s = .next t ∧ t.s rd = (c - b) * sp ∧ t.u rd2 = 0 ∧
          ChangesOnlyRegs [rd, rd2] s t))

/-- BMNEXT.GT: SPACING_RANGE, then TICK_RANGE of `c + 1`; else the lowest set bit `j` at or above the bit `b` of `c + 1`
gives `(c + 1 + (j - b)) * sp` and 1, and no set bit there gives `(c + 1 + (255 - b)) * sp` and 0, unclamped (R92; the
last formula is marked derived there); `rd = rd2` is no command. -/
def Obligations.BmnextGtSearchesUp : Prop :=
  ∀ (rd rd2 rs1 rs2 : Reg) (s : State) (c sp : Int) (b : Nat) (word : Word),
    sp = s.s rs2 → c = s.s rs1 / sp → (b : Int) = (c + 1) % 256 → word = s.bmRead (wordIndex ((c + 1) / 256)) →
    decode (wordOfFields ⟨0x32, rd, rd2, rs1, rs2, 0⟩) =
      (if rd = rd2 then .error .equalDestinations else .ok (.bmnextGt rd rd2 rs1 rs2)) ∧
    (rd ≠ rd2 → sp < 1 ∨ 887272 < sp → FaultsWith (.bmnextGt rd rd2 rs1 rs2) s .spacingRange) ∧
    (rd ≠ rd2 → 1 ≤ sp → sp ≤ 887272 → c + 1 < -887272 ∨ 887272 < c + 1 →
      FaultsWith (.bmnextGt rd rd2 rs1 rs2) s .tickRange) ∧
    (rd ≠ rd2 → 1 ≤ sp → sp ≤ 887272 → -887272 ≤ c + 1 → c + 1 ≤ 887272 →
      (∀ j, b ≤ j → j < 256 → word.getLsbD j = true → (∀ i, b ≤ i → i < j → word.getLsbD i = false) →
        ∃ t, exec (.bmnextGt rd rd2 rs1 rs2) s = .next t ∧ t.s rd = (c + 1 + (j - b)) * sp ∧ t.u rd2 = 1 ∧
          ChangesOnlyRegs [rd, rd2] s t) ∧
      ((∀ i, b ≤ i → i < 256 → word.getLsbD i = false) →
        ∃ t, exec (.bmnextGt rd rd2 rs1 rs2) s = .next t ∧ t.s rd = (c + 1 + (255 - b)) * sp ∧ t.u rd2 = 0 ∧
          ChangesOnlyRegs [rd, rd2] s t))

/-- Locality of BMNEXT (R93): two states that agree on the operands and on the one inspected word give the same
results, and the compressed result is at most 255 below the compressed tick, or at most 256 above it. -/
def Obligations.BmnextInspectsOneWord : Prop :=
  ∀ (rd rd2 rs1 rs2 : Reg) (s s' : State) (c sp : Int), rd ≠ rd2 →
    sp = s.s rs2 → c = s.s rs1 / sp → s.reg rs1 = s'.reg rs1 → s.reg rs2 = s'.reg rs2 → 1 ≤ sp → sp ≤ 887272 →
    (-887272 ≤ c → c ≤ 887272 →
      s.bmRead (wordIndex (c / 256)) = s'.bmRead (wordIndex (c / 256)) →
      ∃ t t' n, exec (.bmnextLe rd rd2 rs1 rs2) s = .next t ∧ exec (.bmnextLe rd rd2 rs1 rs2) s' = .next t' ∧
        t.reg rd = t'.reg rd ∧ t.reg rd2 = t'.reg rd2 ∧ t.s rd = n * sp ∧ c - 255 ≤ n ∧ n ≤ c) ∧
    (-887272 ≤ c + 1 → c + 1 ≤ 887272 →
      s.bmRead (wordIndex ((c + 1) / 256)) = s'.bmRead (wordIndex ((c + 1) / 256)) →
      ∃ t t' n, exec (.bmnextGt rd rd2 rs1 rs2) s = .next t ∧ exec (.bmnextGt rd rd2 rs1 rs2) s' = .next t' ∧
        t.reg rd = t'.reg rd ∧ t.reg rd2 = t'.reg rd2 ∧ t.s rd = n * sp ∧ c + 1 ≤ n ∧ n ≤ c + 256)

/-- BMLD: the word whose index is the signed value of the register; BM_INDEX_RANGE outside -32768 .. 32767 (R94). -/
def Obligations.BmldLoadsTheWord : Prop :=
  ∀ (rd rs1 : Reg) (s : State),
    decode (wordOfFields ⟨0x33, rd, rs1, 0, 0, 0⟩) = .ok (.bmld rd rs1) ∧
    (s.s rs1 < -32768 ∨ 32767 < s.s rs1 → FaultsWith (.bmld rd rs1) s .bmIndexRange) ∧
    (∀ k : WordIndex, k.toInt = s.s rs1 →
      ∃ t, exec (.bmld rd rs1) s = .next t ∧ t.reg rd = s.bmRead k ∧ ChangesOnlyRegs [rd] s t)

/-- BMST: the word whose index is the signed value of the register gets the second source, and nothing else changes;
BM_INDEX_RANGE outside -32768 .. 32767 (R95). -/
def Obligations.BmstStoresTheWord : Prop :=
  ∀ (rs1 rs2 : Reg) (s : State), BitmapCanonical s →
    decode (wordOfFields ⟨0x34, 0, rs1, rs2, 0, 0⟩) = .ok (.bmst rs1 rs2) ∧
    (s.s rs1 < -32768 ∨ 32767 < s.s rs1 → FaultsWith (.bmst rs1 rs2) s .bmIndexRange) ∧
    (∀ k : WordIndex, k.toInt = s.s rs1 →
      ∃ t, exec (.bmst rs1 rs2) s = .next t ∧ t.bmRead k = s.reg rs2 ∧ ChangesOnlyWord k s t)

/-- BMCLR: every word of the bitmap reads 0 afterwards, and nothing else changes (R96). -/
def Obligations.BmclrEmptiesTheBitmap : Prop :=
  decode 0x35000000 = .ok .bmclr ∧
  ∀ s : State, ∃ t, exec .bmclr s = .next t ∧ (∀ k : WordIndex, t.bmRead k = 0) ∧
    SameRegsExcept [] s t ∧ SameLatch s t ∧ SameHostSide s t

/-- A BMST is seen by the next BMLD of the same word (R119, R41). -/
def Obligations.StoreIsSeenByLoad : Prop :=
  ∀ (rd rs1 rs2 : Reg) (s : State), BitmapCanonical s → -32768 ≤ s.s rs1 → s.s rs1 ≤ 32767 →
    ∃ t u, exec (.bmst rs1 rs2) s = .next t ∧ exec (.bmld rd rs1) t = .next u ∧ u.reg rd = s.reg rs2

/-- A BMFLIP is seen by the next BMNEXT.LE (R90, R91, R119): a tick whose bit was clear is found at once. -/
def Obligations.FlipIsSeenBySearch : Prop :=
  ∀ (rd rd2 rs1 rs2 : Reg) (s : State), BitmapCanonical s → rd ≠ rd2 →
    1 ≤ s.s rs2 → s.s rs2 ≤ 887272 → s.s rs1 % s.s rs2 = 0 →
    -887272 ≤ s.s rs1 / s.s rs2 → s.s rs1 / s.s rs2 ≤ 887272 →
    (s.bmRead (wordIndex (s.s rs1 / s.s rs2 / 256))).getLsbD (s.s rs1 / s.s rs2 % 256).toNat = false →
    ∃ t u, exec (.bmflip rs1 rs2) s = .next t ∧ exec (.bmnextLe rd rd2 rs1 rs2) t = .next u ∧
      u.s rd = s.s rs1 ∧ u.u rd2 = 1
end

