-- ==== Sys2Proof/Laws/State.lean ====
section
/-! SUPPORT. One lemma per field per update of the state, and what a register or a bitmap word reads as after each
update, so that no later proof unfolds a record update. -/

namespace Sys2Proof.Machine

/-! ## setReg -/

@[simp] theorem setReg_bm (s : State) (r : Reg) (v : Word) : (s.setReg r v).bm = s.bm := rfl
@[simp] theorem setReg_fault (s : State) (r : Reg) (v : Word) : (s.setReg r v).fault = s.fault := rfl
@[simp] theorem setReg_fcause (s : State) (r : Reg) (v : Word) : (s.setReg r v).fcause = s.fcause := rfl
@[simp] theorem setReg_fcmd (s : State) (r : Reg) (v : Word) : (s.setReg r v).fcmd = s.fcmd := rfl
@[simp] theorem setReg_pending (s : State) (r : Reg) (v : Word) : (s.setReg r v).pending = s.pending := rfl
@[simp] theorem setReg_response (s : State) (r : Reg) (v : Word) : (s.setReg r v).response = s.response := rfl

/-- A register reads as what was last written to it, the others as before (R14: no aliases, no hardwired register). -/
theorem setReg_reg (s : State) (r q : Reg) (v : Word) :
    (s.setReg r v).reg q = if q = r then v else s.reg q := by
  unfold State.setReg State.reg
  simp only [Vector.get_eq_getElem, Vector.getElem_set]
  by_cases h : q = r
  · subst h; simp
  · have : ¬ r.val = q.val := fun e => h (Fin.ext e.symm)
    simp [h, this]

@[simp] theorem setReg_reg_self (s : State) (r : Reg) (v : Word) : (s.setReg r v).reg r = v := by
  simp [setReg_reg]

@[simp] theorem setReg_reg_ne (s : State) (r q : Reg) (v : Word) (h : q ≠ r) :
    (s.setReg r v).reg q = s.reg q := by
  simp [setReg_reg, h]

/-- Two states with the same registers, read one by one, have the same register file. -/
theorem x_ext {s t : State} (h : ∀ r, t.reg r = s.reg r) : t.x = s.x := by
  apply Vector.ext
  intro i hi
  exact h ⟨i, hi⟩

/-! ## bmWrite and bmClear -/

@[simp] theorem bmWrite_x (s : State) (w : WordIndex) (v : Word) : (s.bmWrite w v).x = s.x := rfl
@[simp] theorem bmWrite_bm (s : State) (w : WordIndex) (v : Word) :
    (s.bmWrite w v).bm = s.bm.write w.toNat v := rfl
@[simp] theorem bmWrite_reg (s : State) (w : WordIndex) (v : Word) (r : Reg) :
    (s.bmWrite w v).reg r = s.reg r := rfl
@[simp] theorem bmWrite_fault (s : State) (w : WordIndex) (v : Word) : (s.bmWrite w v).fault = s.fault := rfl
@[simp] theorem bmWrite_fcause (s : State) (w : WordIndex) (v : Word) : (s.bmWrite w v).fcause = s.fcause := rfl
@[simp] theorem bmWrite_fcmd (s : State) (w : WordIndex) (v : Word) : (s.bmWrite w v).fcmd = s.fcmd := rfl
@[simp] theorem bmWrite_pending (s : State) (w : WordIndex) (v : Word) : (s.bmWrite w v).pending = s.pending := rfl
@[simp] theorem bmWrite_response (s : State) (w : WordIndex) (v : Word) :
    (s.bmWrite w v).response = s.response := rfl

@[simp] theorem bmClear_x (s : State) : s.bmClear.x = s.x := rfl
@[simp] theorem bmClear_bm (s : State) : s.bmClear.bm = Memory.cleared := rfl
@[simp] theorem bmClear_reg (s : State) (r : Reg) : s.bmClear.reg r = s.reg r := rfl
@[simp] theorem bmClear_fault (s : State) : s.bmClear.fault = s.fault := rfl
@[simp] theorem bmClear_fcause (s : State) : s.bmClear.fcause = s.fcause := rfl
@[simp] theorem bmClear_fcmd (s : State) : s.bmClear.fcmd = s.fcmd := rfl
@[simp] theorem bmClear_pending (s : State) : s.bmClear.pending = s.pending := rfl
@[simp] theorem bmClear_response (s : State) : s.bmClear.response = s.response := rfl

@[simp] theorem setReg_bmRead (s : State) (r : Reg) (v : Word) (w : WordIndex) :
    (s.setReg r v).bmRead w = s.bmRead w := rfl

/-! ## raiseFault and clearFault -/

@[simp] theorem raiseFault_x (s : State) (c : Cause) (w : HostWord) : (s.raiseFault c w).x = s.x := rfl
@[simp] theorem raiseFault_bm (s : State) (c : Cause) (w : HostWord) : (s.raiseFault c w).bm = s.bm := rfl
@[simp] theorem raiseFault_reg (s : State) (c : Cause) (w : HostWord) (r : Reg) :
    (s.raiseFault c w).reg r = s.reg r := rfl
@[simp] theorem raiseFault_bmRead (s : State) (c : Cause) (w : HostWord) (k : WordIndex) :
    (s.raiseFault c w).bmRead k = s.bmRead k := rfl
@[simp] theorem raiseFault_fault (s : State) (c : Cause) (w : HostWord) : (s.raiseFault c w).fault = true := rfl
@[simp] theorem raiseFault_fcause (s : State) (c : Cause) (w : HostWord) : (s.raiseFault c w).fcause = c := rfl
@[simp] theorem raiseFault_fcmd (s : State) (c : Cause) (w : HostWord) : (s.raiseFault c w).fcmd = w := rfl
@[simp] theorem raiseFault_pending (s : State) (c : Cause) (w : HostWord) :
    (s.raiseFault c w).pending = s.pending := rfl
@[simp] theorem raiseFault_response (s : State) (c : Cause) (w : HostWord) :
    (s.raiseFault c w).response = s.response := rfl

@[simp] theorem clearFault_x (s : State) : s.clearFault.x = s.x := rfl
@[simp] theorem clearFault_bm (s : State) : s.clearFault.bm = s.bm := rfl
@[simp] theorem clearFault_reg (s : State) (r : Reg) : s.clearFault.reg r = s.reg r := rfl
@[simp] theorem clearFault_bmRead (s : State) (k : WordIndex) : s.clearFault.bmRead k = s.bmRead k := rfl
@[simp] theorem clearFault_fault (s : State) : s.clearFault.fault = false := rfl
@[simp] theorem clearFault_fcause (s : State) : s.clearFault.fcause = .noFault := rfl
@[simp] theorem clearFault_fcmd (s : State) : s.clearFault.fcmd = 0 := rfl
@[simp] theorem clearFault_pending (s : State) : s.clearFault.pending = s.pending := rfl
@[simp] theorem clearFault_response (s : State) : s.clearFault.response = s.response := rfl

/-! ## answer -/

@[simp] theorem answer_x (s : State) (a : Response) : (s.answer a).x = s.x := rfl
@[simp] theorem answer_bm (s : State) (a : Response) : (s.answer a).bm = s.bm := rfl
@[simp] theorem answer_reg (s : State) (a : Response) (r : Reg) : (s.answer a).reg r = s.reg r := rfl
@[simp] theorem answer_bmRead (s : State) (a : Response) (k : WordIndex) : (s.answer a).bmRead k = s.bmRead k := rfl
@[simp] theorem answer_fault (s : State) (a : Response) : (s.answer a).fault = s.fault := rfl
@[simp] theorem answer_fcause (s : State) (a : Response) : (s.answer a).fcause = s.fcause := rfl
@[simp] theorem answer_fcmd (s : State) (a : Response) : (s.answer a).fcmd = s.fcmd := rfl
@[simp] theorem answer_pending (s : State) (a : Response) : (s.answer a).pending = s.pending := rfl
@[simp] theorem answer_response (s : State) (a : Response) : (s.answer a).response = some a := rfl

end Sys2Proof.Machine
end

