-- ==== Sys2Proof/Laws/Memory.lean ====
section
/-! SUPPORT. What the bitmap memory's operations do: they keep the canonical form, a read after a write of the same word
gives the value written, and every other word reads as before. -/

namespace Sys2Proof.Machine

@[simp] theorem read_nil (k : Nat) : Memory.read [] k = Memory.unlisted := rfl

theorem read_cons (j : Nat) (u : Word) (rest : Memory) (k : Nat) :
    Memory.read ((j, u) :: rest) k = if j = k then u else Memory.read rest k := rfl

theorem wfFrom_cons {lo k : Nat} {v : Word} {rest : Memory} :
    Memory.wfFrom lo ((k, v) :: rest) = true ↔
      lo ≤ k ∧ k < 65536 ∧ v ≠ Memory.unlisted ∧ Memory.wfFrom (k + 1) rest = true := by
  simp [Memory.wfFrom, and_assoc]

theorem wfFrom_mono {lo lo' : Nat} {m : Memory} (h : Memory.wfFrom lo m = true) (hl : lo' ≤ lo) :
    Memory.wfFrom lo' m = true := by
  cases m with
  | nil => rfl
  | cons p rest =>
    obtain ⟨k, v⟩ := p
    rw [wfFrom_cons] at h ⊢
    exact ⟨by omega, h.2⟩

/-- Below its first key a canonical memory lists nothing. -/
theorem read_below {lo : Nat} {m : Memory} (h : Memory.wfFrom lo m = true) {k : Nat} (hk : k < lo) :
    m.read k = Memory.unlisted := by
  induction m generalizing lo with
  | nil => rfl
  | cons p rest ih =>
    obtain ⟨j, u⟩ := p
    rw [wfFrom_cons] at h
    rw [read_cons, if_neg (by omega), ih h.2.2.2 (by omega)]

theorem write_wfFrom {lo : Nat} {m : Memory} (h : Memory.wfFrom lo m = true) {k : Nat} (hlo : lo ≤ k)
    (hk : k < 65536) (v : Word) : Memory.wfFrom lo (m.write k v) = true := by
  induction m generalizing lo with
  | nil =>
    by_cases hv : v = Memory.unlisted
    · simp [Memory.write, hv, Memory.wfFrom]
    · simp only [Memory.write, if_neg hv]
      exact wfFrom_cons.mpr ⟨hlo, hk, hv, rfl⟩
  | cons p rest ih =>
    obtain ⟨j, u⟩ := p
    have h' := wfFrom_cons.mp h
    simp only [Memory.write]
    split
    · exact wfFrom_cons.mpr ⟨h'.1, h'.2.1, h'.2.2.1, ih h'.2.2.2 (by omega)⟩
    · split
      · subst_vars
        split
        · exact wfFrom_mono h'.2.2.2 (by omega)
        · exact wfFrom_cons.mpr ⟨hlo, hk, ‹_›, h'.2.2.2⟩
      · split
        · exact h
        · refine wfFrom_cons.mpr ⟨hlo, hk, ‹_›, wfFrom_cons.mpr ⟨by omega, h'.2⟩⟩

/-- Writing a word keeps the canonical form. -/
theorem write_wf {m : Memory} (h : m.wf = true) {k : Nat} (hk : k < 65536) (v : Word) :
    (m.write k v).wf = true :=
  write_wfFrom h (Nat.zero_le k) hk v

@[simp] theorem cleared_wf : Memory.cleared.wf = true := rfl

theorem read_write_self_from {lo : Nat} {m : Memory} (h : Memory.wfFrom lo m = true) (k : Nat) (v : Word) :
    (m.write k v).read k = v := by
  induction m generalizing lo with
  | nil =>
    by_cases hv : v = Memory.unlisted
    · simp [Memory.write, hv]
    · simp [Memory.write, hv, Memory.read]
  | cons p rest ih =>
    obtain ⟨j, u⟩ := p
    have h' := wfFrom_cons.mp h
    simp only [Memory.write]
    split
    · rw [read_cons, if_neg (by omega)]
      exact ih h'.2.2.2
    · split
      · subst_vars
        split
        · rw [read_below h'.2.2.2 (Nat.lt_succ_self _)]; simp_all
        · simp [read_cons]
      · split
        · rw [read_cons, if_neg (by omega), read_below h'.2.2.2 (by omega)]; simp_all
        · simp [read_cons]

/-- A word written is the word read. -/
theorem read_write_self {m : Memory} (h : m.wf = true) (k : Nat) (v : Word) : (m.write k v).read k = v :=
  read_write_self_from h k v

/-- Every other word reads as before, in any memory. -/
theorem read_write_ne (m : Memory) {k k' : Nat} (hne : k' ≠ k) (v : Word) :
    (m.write k v).read k' = m.read k' := by
  induction m with
  | nil =>
    by_cases hv : v = Memory.unlisted
    · simp [Memory.write, hv]
    · simp [Memory.write, hv, Memory.read, hne.symm]
  | cons p rest ih =>
    obtain ⟨j, u⟩ := p
    simp only [Memory.write]
    split
    · simp only [read_cons, ih]
    · split
      · subst_vars
        split
        · rw [read_cons, if_neg hne.symm]
        · simp only [read_cons, if_neg hne.symm]
      · split
        · rfl
        · rw [read_cons, if_neg hne.symm]

@[simp] theorem read_cleared (k : Nat) : Memory.cleared.read k = 0 := rfl

/-- Two canonical memories whose keys start at `lo` and that read alike are the same list. -/
theorem eq_of_read_eq_from : ∀ {lo : Nat} {m m' : Memory}, Memory.wfFrom lo m = true → Memory.wfFrom lo m' = true →
    (∀ k, m.read k = m'.read k) → m = m'
  | _, [], [], _, _, _ => rfl
  | lo, [], (k, v) :: rest, _, h', hr => by
    have h := (wfFrom_cons.mp h').2.2.1
    exact absurd (by simpa [read_cons] using (hr k).symm) h
  | lo, (k, v) :: rest, [], h', _, hr => by
    have h := (wfFrom_cons.mp h').2.2.1
    exact absurd (by simpa [read_cons] using hr k) h
  | lo, (k, v) :: rest, (k', v') :: rest', h, h', hr => by
    obtain ⟨hk, -, hv, hw⟩ := wfFrom_cons.mp h
    obtain ⟨hk', -, hv', hw'⟩ := wfFrom_cons.mp h'
    have e : k = k' := by
      rcases Nat.lt_trichotomy k k' with hlt | he | hgt
      · have := hr k
        rw [read_cons, if_pos rfl, read_cons, if_neg (by omega), read_below hw' (by omega)] at this
        exact absurd this hv
      · exact he
      · have := hr k'
        rw [read_cons, if_neg (by omega), read_below hw (by omega), read_cons, if_pos rfl] at this
        exact absurd this.symm hv'
    subst e
    have ev : v = v' := by simpa [read_cons] using hr k
    subst ev
    rw [eq_of_read_eq_from hw hw' fun j => ?_]
    have := hr j
    by_cases hj : k = j
    · subst hj
      rw [read_below hw (by omega), read_below hw' (by omega)]
    · simpa [read_cons, hj] using this

/-- Equal bitmaps are equal data: two canonical memories that read alike are the same list (log 3). -/
theorem eq_of_read_eq {m m' : Memory} (h : m.wf = true) (h' : m'.wf = true) (hr : ∀ k, m.read k = m'.read k) :
    m = m' := eq_of_read_eq_from h h' hr

/-! ## The same through the state -/

theorem bmWrite_wf {s : State} (h : s.bm.wf = true) (w : WordIndex) (v : Word) : (s.bmWrite w v).bm.wf = true :=
  write_wf h w.isLt v

/-- The bitmap word `k` after `MemWrite(w, 32, v)`. -/
theorem bmWrite_bmRead {s : State} (h : s.bm.wf = true) (w k : WordIndex) (v : Word) :
    (s.bmWrite w v).bmRead k = if k = w then v else s.bmRead k := by
  unfold State.bmRead
  by_cases hk : k = w
  · subst hk; simp [read_write_self h]
  · rw [if_neg hk]
    exact read_write_ne _ (fun e => hk (BitVec.eq_of_toNat_eq e)) v

@[simp] theorem bmClear_bmRead (s : State) (k : WordIndex) : s.bmClear.bmRead k = 0 := rfl

@[simp] theorem bmClear_wf (s : State) : s.bmClear.bm.wf = true := rfl

@[simp] theorem reset_wf : State.reset.bm.wf = true := rfl

end Sys2Proof.Machine
end

