-- ==== Sys2Proof/Laws/Operands.lean ====
section
/-! SUPPORT. What encoded results read back as, and what the limbs of a word are. -/

namespace Sys2Proof.Machine

/-- A result reads back, unsigned, as its value modulo 2^256 (R7). -/
theorem enc_toNat (n : Int) : (enc n).toNat = (n % (modulus : Int)).toNat := by
  simp [enc, BitVec.toNat_ofInt, modulus]

/-- A result in the unsigned range reads back as itself. -/
theorem enc_natCast_toNat {n : Nat} (h : n < modulus) : (enc (n : Int)).toNat = n := by
  rw [enc_toNat, Int.emod_eq_of_lt (by omega) (by exact_mod_cast h)]
  simp

/-- A result in the signed range reads back, signed, as itself. -/
theorem enc_toInt {n : Int} (h0 : -2 ^ 255 ≤ n) (h1 : n < 2 ^ 255) : (enc n).toInt = n := by
  unfold enc
  exact BitVec.toInt_ofInt_eq_self (by decide) (by simpa using h0) (by simpa using h1)

theorem setReg_u_self (s : State) (r : Reg) (v : Word) : (s.setReg r v).u r = v.toNat := by
  simp [State.u]

theorem setReg_s_self (s : State) (r : Reg) (v : Word) : (s.setReg r v).s r = v.toInt := by
  simp [State.s]

@[simp] theorem encBool_toNat (b : Bool) : (encBool b).toNat = if b then 1 else 0 := by
  cases b <;> rfl

/-- The index of a word is the integer it was made from, inside the bitmap's index range (R38). -/
theorem wordIndex_toInt {w : Int} (h0 : -32768 ≤ w) (h1 : w ≤ 32767) : (wordIndex w).toInt = w := by
  unfold wordIndex
  exact BitVec.toInt_ofInt_eq_self (by decide) (by simpa using h0) (by simpa using (by omega : w < 32768))

/-- A word index is the index made from its own integer. -/
theorem wordIndex_of_toInt (k : WordIndex) : wordIndex k.toInt = k := BitVec.ofInt_toInt

/-- Limb `j` as a number (R31). -/
theorem limb_toNat (v : Word) (j : Fin 8) : (limb v j).toNat = v.toNat / 2 ^ (32 * j.val) % 2 ^ 32 := by
  simp [limb, BitVec.extractLsb'_toNat, Nat.shiftRight_eq_div_pow]

theorem limb_getLsbD (v : Word) (j : Fin 8) (b : Nat) (hb : b < 32) :
    (limb v j).getLsbD b = v.getLsbD (32 * j.val + b) := by
  simp [limb, hb]

/-- Replacing limb `j` changes exactly its 32 bits (R31). -/
theorem setLimb_getLsbD (v : Word) (j : Fin 8) (d : HostWord) (b : Nat) (hb : b < 256) :
    (setLimb v j d).getLsbD b = if b / 32 = j.val then d.getLsbD (b % 32) else v.getLsbD b := by
  have hm : ∀ k, (0xFFFFFFFF : Word).getLsbD k = decide (k < 32) := by
    intro k
    change Nat.testBit (2 ^ 32 - 1) k = _
    exact Nat.testBit_two_pow_sub_one 32 k
  have hj := j.isLt
  simp only [setLimb, BitVec.getLsbD_or, BitVec.getLsbD_and, BitVec.getLsbD_not, BitVec.getLsbD_shiftLeft, hm,
    BitVec.getLsbD_setWidth, hb, decide_true, Bool.true_and]
  by_cases h1 : b < 32 * j.val
  · have : ¬ b / 32 = j.val := by omega
    simp [h1, this]
  · by_cases h2 : b < 32 * j.val + 32
    · have e : b / 32 = j.val := by omega
      have e2 : b - 32 * j.val = b % 32 := by omega
      have e3 : b - 32 * j.val < 32 := by omega
      simp [h1, e, e2, show b % 32 < 32 by omega, show b % 32 < 256 by omega]
    · have e : ¬ b / 32 = j.val := by omega
      have e3 : ¬ b - 32 * j.val < 32 := by omega
      simp [h1, e, e3, BitVec.getLsbD_of_ge d (b - 32 * j.val) (by omega)]

end Sys2Proof.Machine
end

