-- ==== Sys2Proof/Laws/Commands.lean ====
section
/-! SUPPORT. What each operation the commands share can do, said once: how a command ends, how a result reaches its
destinations, and what the checks and searches yield. -/

namespace Sys2Proof.Machine

/-! ## How a command ends -/

@[simp] theorem endCommand_ok (i : Instr) (s t : State) : endCommand i s (.ok t) = .next t := rfl

@[simp] theorem endCommand_error (i : Instr) (s : State) (c : Cause) :
    endCommand i s (.error c) = .next (s.raiseFault c (encode i)) := rfl

/-- A command that answers a next state has either written its effect or taken its fault on the state it began in. -/
theorem endCommand_cases {i : Instr} {s t : State} {r : Except Cause State} (h : endCommand i s r = .next t) :
    r = .ok t ∨ ∃ c, r = .error c ∧ t = s.raiseFault c (encode i) := by
  cases r with
  | ok u =>
    simp only [endCommand_ok, Host.Outcome.next.injEq] at h
    exact .inl (by rw [h])
  | error c =>
    simp only [endCommand_error, Host.Outcome.next.injEq] at h
    exact .inr ⟨c, rfl, h.symm⟩

/-- Every command answers a next state. -/
theorem endCommand_next (i : Instr) (s : State) (r : Except Cause State) : ∃ t, endCommand i s r = .next t := by
  cases r <;> exact ⟨_, rfl⟩

/-- A command whose effect is to raise a cause takes that fault. -/
theorem faultsWith_of_error {i : Instr} {s : State} {c : Cause} (h : exec i s = endCommand i s (.error c)) :
    FaultsWith i s c :=
  ⟨s.raiseFault c (encode i), by simp [h], rfl, rfl, rfl, rfl, rfl, rfl, rfl⟩

@[simp] theorem requireDistinct_self (r : Reg) (e : Except Cause State) :
    requireDistinct r r e = .error .illegalCmd := by simp [requireDistinct]

@[simp] theorem requireDistinct_ne {r q : Reg} (h : r ≠ q) (e : Except Cause State) :
    requireDistinct r q e = e := by simp [requireDistinct, h]

/-! ## Results to destinations -/

@[simp] theorem resultTo_ok (s : State) (rd : Reg) (n : Int) : resultTo s rd (.ok n) = .ok (s.setReg rd (enc n)) := rfl

@[simp] theorem resultTo_error (s : State) (rd : Reg) (c : Cause) : resultTo s rd (.error c) = .error c := rfl

/-- A result that is written was computed, and is written to the destination alone. -/
theorem resultTo_cases {s t : State} {rd : Reg} {r : Except Cause Int} (h : resultTo s rd r = .ok t) :
    ∃ n, r = .ok n ∧ t = s.setReg rd (enc n) := by
  cases r with
  | ok n => exact ⟨n, rfl, by simpa using h.symm⟩
  | error c => simp at h

@[simp] theorem nextTickTo_ok (s : State) (rd rd2 : Reg) (n : NextTick) :
    nextTickTo s rd rd2 (.ok n) = .ok ((s.setReg rd (enc n.next)).setReg rd2 (encBool n.init)) := rfl

@[simp] theorem nextTickTo_error (s : State) (rd rd2 : Reg) (c : Cause) :
    nextTickTo s rd rd2 (.error c) = .error c := rfl

theorem nextTickTo_cases {s t : State} {rd rd2 : Reg} {r : Except Cause NextTick}
    (h : nextTickTo s rd rd2 r = .ok t) :
    ∃ n, r = .ok n ∧ t = (s.setReg rd (enc n.next)).setReg rd2 (encBool n.init) := by
  cases r with
  | ok n => exact ⟨n, rfl, by simpa using h.symm⟩
  | error c => simp at h

@[simp] theorem positionTo_ok (s : State) (rd rd2 : Reg) (w : Int) (b : Nat) :
    positionTo s rd rd2 (.ok (w, b)) = .ok ((s.setReg rd (enc w)).setReg rd2 (enc b)) := rfl

@[simp] theorem positionTo_error (s : State) (rd rd2 : Reg) (c : Cause) :
    positionTo s rd rd2 (.error c) = .error c := rfl

theorem positionTo_cases {s t : State} {rd rd2 : Reg} {r : Except Cause (Int × Nat)}
    (h : positionTo s rd rd2 r = .ok t) :
    ∃ w b, r = .ok (w, b) ∧ t = (s.setReg rd (enc w)).setReg rd2 (enc b) := by
  cases r with
  | ok p =>
    obtain ⟨w, b⟩ := p
    exact ⟨w, b, rfl, by simpa using h.symm⟩
  | error c => simp at h

/-- Writing listed registers is a change of those registers alone. -/
theorem changesOnlyRegs_setReg (s : State) (rd : Reg) (v : Word) : ChangesOnlyRegs [rd] s (s.setReg rd v) := by
  refine ⟨fun r hr => ?_, fun _ => rfl, ⟨rfl, rfl, rfl⟩, ⟨rfl, rfl⟩⟩
  exact setReg_reg_ne _ _ _ _ (by simpa using hr)

theorem changesOnlyRegs_setReg₂ (s : State) (rd rd2 : Reg) (v v2 : Word) :
    ChangesOnlyRegs [rd, rd2] s ((s.setReg rd v).setReg rd2 v2) := by
  refine ⟨fun r hr => ?_, fun _ => rfl, ⟨rfl, rfl, rfl⟩, ⟨rfl, rfl⟩⟩
  simp only [List.mem_cons, List.not_mem_nil, or_false, not_or] at hr
  rw [setReg_reg_ne _ _ _ _ hr.2, setReg_reg_ne _ _ _ _ hr.1]

/-- Writing one bitmap word is a change of that word alone. -/
theorem changesOnlyWord_bmWrite (s : State) (w : WordIndex) (v : Word) : ChangesOnlyWord w s (s.bmWrite w v) := by
  refine ⟨fun _ _ => rfl, fun k hk => ?_, ⟨rfl, rfl, rfl⟩, ⟨rfl, rfl⟩⟩
  exact read_write_ne _ (fun e => hk (BitVec.eq_of_toNat_eq e)) v

/-! ## Wide integers -/

/-- The highest set bit of a non-zero value (R66). -/
theorem highestBit_spec {v : Nat} (h : v ≠ 0) : 2 ^ highestBit v ≤ v ∧ v < 2 ^ (highestBit v + 1) :=
  ⟨Nat.log2_self_le h, Nat.lt_log2_self⟩

theorem highestBit_lt {v n : Nat} (h : v < 2 ^ n) (hv : v ≠ 0) : highestBit v < n :=
  (Nat.log2_lt hv).mpr h

/-- The lowest set bit of a value that has one among its lowest `n`: it divides out exactly that often (R67). -/
theorem lowestBitBelow_spec : ∀ (n v : Nat), v ≠ 0 → v < 2 ^ n →
    2 ^ lowestBitBelow n v ∣ v ∧ ¬ 2 ^ (lowestBitBelow n v + 1) ∣ v
  | 0, v, h, hn => absurd hn (by simp; omega)
  | n + 1, v, h, hn => by
    unfold lowestBitBelow
    split
    · exact ⟨by simp, fun hd => by simp at hd; omega⟩
    · have ih := lowestBitBelow_spec n (v / 2) (by omega) (by omega)
      have e : v = 2 * (v / 2) := by omega
      constructor
      · rw [e, pow_succ']
        exact Nat.mul_dvd_mul_left 2 (by simpa using ih.1)
      · intro hd
        rw [e, pow_succ' 2 (_ + 1)] at hd
        exact ih.2 (by simpa using Nat.dvd_of_mul_dvd_mul_left (by decide : 0 < 2) hd)

theorem lowestBit_spec {v : Nat} (h : v ≠ 0) (hv : v < modulus) : 2 ^ lowestBit v ∣ v ∧ ¬ 2 ^ (lowestBit v + 1) ∣ v :=
  lowestBitBelow_spec 256 v h hv

/-! ## The bitmap -/

/-- `position` inside its range (R87). -/
theorem position_ok {c : Int} (h0 : -887272 ≤ c) (h1 : c ≤ 887272) : position c = .ok (c / 256, (c % 256).toNat) := by
  unfold position minTick maxTick
  rw [if_neg (by omega)]

/-- `position` outside its range (R87). -/
theorem position_error {c : Int} (h : c < -887272 ∨ c > 887272) : position c = .error .tickRange := by
  unfold position minTick maxTick
  rw [if_pos h]

theorem spacingOutside_iff (sp : Int) : spacingOutside sp = true ↔ sp < 1 ∨ sp > 887272 := by simp [spacingOutside]

theorem indexOutside_iff (w : Int) : indexOutside w = true ↔ w < -32768 ∨ w > 32767 := by simp [indexOutside]

/-- A flip that is done has passed the three checks and writes one word (R90). -/
theorem flipTick_cases {s t : State} {a sp : Int} (h : flipTick s a sp = .ok t) :
    t = s.bmWrite (wordIndex (a / sp / 256))
      (s.wordAt (a / sp / 256) ^^^ (1 : Word) <<< (a / sp % 256).toNat) := by
  unfold flipTick at h
  split at h
  · cases h
  · split at h
    · cases h
    · by_cases hr : a / sp < -887272 ∨ a / sp > 887272
      · simp [position_error hr] at h
      · rw [position_ok (by omega) (by omega)] at h
        simpa using h.symm

end Sys2Proof.Machine
end

