-- ==== Sys2Proof/Laws/Encoding.lean ====
section
/-! SUPPORT. The fields of a word and the word of given fields are inverse to each other (R46), and what each command's
encoding holds in its fields. -/

namespace Sys2Proof

/-- Concatenation as arithmetic (R6: the left operand in the more significant position). -/
theorem append_toNat {m n : Nat} (a : BitVec m) (b : BitVec n) : (a ++ b).toNat = a.toNat * 2 ^ n + b.toNat := by
  rw [BitVec.toNat_append, ← Nat.shiftLeft_add_eq_or_of_lt b.isLt, Nat.shiftLeft_eq]

/-- The word of given fields as a number. -/
theorem wordOfFields_toNat (f : Fields) :
    (wordOfFields f).toNat =
      ((((f.op.toNat * 16 + f.f1.val) * 16 + f.f2.val) * 16 + f.f3.val) * 16 + f.f4.val) * 256 + f.fn.toNat := by
  have h : ∀ a : Reg, (BitVec.ofFin (w := 4) a).toNat = a.val := fun _ => rfl
  change (f.op ++ BitVec.ofFin (w := 4) f.f1 ++ BitVec.ofFin (w := 4) f.f2 ++ BitVec.ofFin (w := 4) f.f3 ++
    BitVec.ofFin (w := 4) f.f4 ++ f.fn).toNat = _
  simp only [append_toNat, h]
  norm_num

theorem fieldsOf_op (c : HostWord) : (fieldsOf c).op.toNat = c.toNat / 2 ^ 24 := by
  have := c.isLt
  simp only [fieldsOf, BitVec.extractLsb_toNat, Nat.shiftRight_eq_div_pow]
  omega

theorem fieldsOf_f1 (c : HostWord) : (fieldsOf c).f1.val = c.toNat / 2 ^ 20 % 16 := by
  change (c.extractLsb 23 20).toNat = _
  simp [BitVec.extractLsb_toNat, Nat.shiftRight_eq_div_pow]

theorem fieldsOf_f2 (c : HostWord) : (fieldsOf c).f2.val = c.toNat / 2 ^ 16 % 16 := by
  change (c.extractLsb 19 16).toNat = _
  simp [BitVec.extractLsb_toNat, Nat.shiftRight_eq_div_pow]

theorem fieldsOf_f3 (c : HostWord) : (fieldsOf c).f3.val = c.toNat / 2 ^ 12 % 16 := by
  change (c.extractLsb 15 12).toNat = _
  simp [BitVec.extractLsb_toNat, Nat.shiftRight_eq_div_pow]

theorem fieldsOf_f4 (c : HostWord) : (fieldsOf c).f4.val = c.toNat / 2 ^ 8 % 16 := by
  change (c.extractLsb 11 8).toNat = _
  simp [BitVec.extractLsb_toNat, Nat.shiftRight_eq_div_pow]

theorem fieldsOf_fn (c : HostWord) : (fieldsOf c).fn.toNat = c.toNat % 256 := by
  simp [fieldsOf, BitVec.extractLsb_toNat]

/-- Two field tuples with equal numbers in each place are equal. -/
theorem fields_ext {f g : Fields} (h0 : f.op.toNat = g.op.toNat) (h1 : f.f1.val = g.f1.val) (h2 : f.f2.val = g.f2.val)
    (h3 : f.f3.val = g.f3.val) (h4 : f.f4.val = g.f4.val) (h5 : f.fn.toNat = g.fn.toNat) : f = g := by
  obtain ⟨o, a, b, c, d, n⟩ := f
  obtain ⟨o', a', b', c', d', n'⟩ := g
  simp only [Fields.mk.injEq]
  exact ⟨BitVec.eq_of_toNat_eq h0, Fin.ext h1, Fin.ext h2, Fin.ext h3, Fin.ext h4, BitVec.eq_of_toNat_eq h5⟩

/-- No bit of a field is lost in the word. -/
theorem fieldsOf_wordOfFields (f : Fields) : fieldsOf (wordOfFields f) = f := by
  have hw := wordOfFields_toNat f
  have h0 := f.op.isLt
  have h1 := f.f1.isLt
  have h2 := f.f2.isLt
  have h3 := f.f3.isLt
  have h4 := f.f4.isLt
  have h5 := f.fn.isLt
  apply fields_ext
  · rw [fieldsOf_op]; omega
  · rw [fieldsOf_f1]; omega
  · rw [fieldsOf_f2]; omega
  · rw [fieldsOf_f3]; omega
  · rw [fieldsOf_f4]; omega
  · rw [fieldsOf_fn]; omega

/-- A word is the word of its fields. -/
theorem wordOfFields_fieldsOf (c : HostWord) : wordOfFields (fieldsOf c) = c := by
  apply BitVec.eq_of_toNat_eq
  have := c.isLt
  rw [wordOfFields_toNat, fieldsOf_op, fieldsOf_f1, fieldsOf_f2, fieldsOf_f3, fieldsOf_f4, fieldsOf_fn]
  omega

end Sys2Proof
end

