-- ==== Sys2Proof/Laws/Decode.lean ====
section
/-! SUPPORT. The opcode table row by row in terms of the fields of a word, so that no later proof works with masks: which
fields each row asks for, and the decoder as a chain of tests on the fields. -/

namespace Sys2Proof

/-- Bitwise and works field by field. -/
theorem and_wordOfFields (f g : Fields) :
    wordOfFields f &&& wordOfFields g = wordOfFields
      ⟨f.op &&& g.op, (BitVec.ofFin (w := 4) f.f1 &&& BitVec.ofFin (w := 4) g.f1).toFin,
        (BitVec.ofFin (w := 4) f.f2 &&& BitVec.ofFin (w := 4) g.f2).toFin,
        (BitVec.ofFin (w := 4) f.f3 &&& BitVec.ofFin (w := 4) g.f3).toFin,
        (BitVec.ofFin (w := 4) f.f4 &&& BitVec.ofFin (w := 4) g.f4).toFin, f.fn &&& g.fn⟩ := by
  change ((f.op ++ BitVec.ofFin (w := 4) f.f1 ++ BitVec.ofFin (w := 4) f.f2 ++ BitVec.ofFin (w := 4) f.f3 ++
      BitVec.ofFin (w := 4) f.f4 ++ f.fn : BitVec (8 + 4 + 4 + 4 + 4 + 8)) &&&
    (g.op ++ BitVec.ofFin (w := 4) g.f1 ++ BitVec.ofFin (w := 4) g.f2 ++ BitVec.ofFin (w := 4) g.f3 ++
      BitVec.ofFin (w := 4) g.f4 ++ g.fn : BitVec (8 + 4 + 4 + 4 + 4 + 8))) = _
  rw [BitVec.and_append, BitVec.and_append, BitVec.and_append, BitVec.and_append, BitVec.and_append]
  rfl

/-- A register field under a mask field: the mask 0 asks for nothing, the mask 15 asks for zero. -/
def regFieldTest (asked : Bool) (a : Reg) : Bool := !asked || decide (a = 0)

/-- A row whose mask covers `fn` asks for one value of it. -/
def fnTest : Option (BitVec 8) → BitVec 8 → Bool
  | none, _ => true
  | some v, a => decide (a = v)

/-- What a row asks of the fields: its `op`, zero in the asked register fields, and, if asked, its `fn`. -/
def rowTest (op : BitVec 8) (a1 a2 a3 a4 : Bool) (fn : Option (BitVec 8)) (f : Fields) : Bool :=
  decide (f.op = op) && regFieldTest a1 f.f1 && regFieldTest a2 f.f2 && regFieldTest a3 f.f3 && regFieldTest a4 f.f4 &&
    fnTest fn f.fn

/-- The mask field that asks, or does not ask, for a register field to be zero. -/
def maskField (asked : Bool) : Reg := if asked then 15 else 0

theorem regField_and (asked : Bool) (a : Reg) :
    decide ((BitVec.ofFin (w := 4) a &&& BitVec.ofFin (w := 4) (maskField asked)).toFin = (0 : Reg)) =
      regFieldTest asked a := by
  cases asked
  · simp [regFieldTest, maskField]
  · revert a; decide

/-- A row whose match and mask are words of fields of this shape selects by `rowTest`. -/
theorem selects_eq_rowTest (row : OpcodeRow) (op : BitVec 8) (a1 a2 a3 a4 : Bool) (fn : Option (BitVec 8))
    (hp : row.pattern = wordOfFields ⟨op, 0, 0, 0, 0, fn.getD 0⟩)
    (hm : row.mask = wordOfFields ⟨255, maskField a1, maskField a2, maskField a3, maskField a4,
      if fn.isSome then 255 else 0⟩) (c : HostWord) :
    row.selects c = rowTest op a1 a2 a3 a4 fn (fieldsOf c) := by
  have hop : ∀ v : BitVec 8, v &&& 255 = v := by
    intro v
    have h : (255 : BitVec 8) = BitVec.allOnes 8 := by decide
    rw [h, BitVec.and_allOnes]
  have hfn : decide ((fieldsOf c).fn &&& (if fn.isSome then 255 else 0) = fn.getD 0) = fnTest fn (fieldsOf c).fn := by
    cases fn with
    | none => simp [fnTest]
    | some v =>
      simp only [Option.isSome_some, if_true, Option.getD_some, hop]
      rfl
  unfold OpcodeRow.selects rowTest
  rw [← hfn, ← regField_and a1, ← regField_and a2, ← regField_and a3, ← regField_and a4]
  conv_lhs => rw [← wordOfFields_fieldsOf c, hp, hm, and_wordOfFields, hop]
  rw [Bool.eq_iff_iff, beq_iff_eq]
  simp only [Bool.and_eq_true, decide_eq_true_eq]
  constructor
  · intro h
    have h' := congrArg fieldsOf h
    simp only [fieldsOf_wordOfFields, Fields.mk.injEq] at h'
    tauto
  · rintro ⟨⟨⟨⟨⟨h0, h1⟩, h2⟩, h3⟩, h4⟩, h5⟩
    rw [h0, h1, h2, h3, h4, h5]

/-- What each row of the table asks, in the order of R49. -/
def tableTests (f : Fields) : List (Bool × Option Instr) := [
  (rowTest 0x01 false true true true none f, (romEntryOf f.fn).map (.ldc f.f1)),
  (rowTest 0x10 false false false true (some 0) f, some (.addw f.f1 f.f2 f.f3)),
  (rowTest 0x11 false false false true (some 0) f, some (.subw f.f1 f.f2 f.f3)),
  (rowTest 0x12 false false false true (some 0) f, some (.mulw f.f1 f.f2 f.f3)),
  (rowTest 0x13 false false false true (some 0) f, some (.mulhw f.f1 f.f2 f.f3)),
  (rowTest 0x14 false false false false (some 0) f, some (.muldivF f.f1 f.f2 f.f3 f.f4)),
  (rowTest 0x14 false false false false (some 1) f, some (.muldivC f.f1 f.f2 f.f3 f.f4)),
  (rowTest 0x15 false false false true (some 0) f, some (.divru f.f1 f.f2 f.f3)),
  (rowTest 0x16 false false true true (some 0) f, some (.msb f.f1 f.f2)),
  (rowTest 0x17 false false true true (some 0) f, some (.lsb f.f1 f.f2)),
  (rowTest 0x20 false false true true (some 0) f, some (.t2p f.f1 f.f2)),
  (rowTest 0x21 false false true true (some 0) f, some (.p2t f.f1 f.f2)),
  (rowTest 0x30 false false false true (some 0) f, some (.bmpos f.f1 f.f2 f.f3)),
  (rowTest 0x31 true false false true (some 0) f, some (.bmflip f.f2 f.f3)),
  (rowTest 0x32 false false false false (some 0) f, some (.bmnextGt f.f1 f.f2 f.f3 f.f4)),
  (rowTest 0x32 false false false false (some 1) f, some (.bmnextLe f.f1 f.f2 f.f3 f.f4)),
  (rowTest 0x33 false false true true (some 0) f, some (.bmld f.f1 f.f2)),
  (rowTest 0x34 true false false true (some 0) f, some (.bmst f.f2 f.f3)),
  (rowTest 0x35 true true true true (some 0) f, some .bmclr)]

/-- The table asks of a word, row by row, what `tableTests` asks of its fields. -/
theorem opcodeTable_tests (c : HostWord) :
    opcodeTable.map (fun row => (row.selects c, row.build (fieldsOf c))) = tableTests (fieldsOf c) := by
  simp only [opcodeTable, constantRows, wideIntRows, tickMathRows, tickBitmapRows, List.cons_append, List.nil_append,
    List.map_cons, List.map_nil, tableTests]
  rw [selects_eq_rowTest _ 0x01 false true true true none (by decide) (by decide),
    selects_eq_rowTest _ 0x10 false false false true (some 0) (by decide) (by decide),
    selects_eq_rowTest _ 0x11 false false false true (some 0) (by decide) (by decide),
    selects_eq_rowTest _ 0x12 false false false true (some 0) (by decide) (by decide),
    selects_eq_rowTest _ 0x13 false false false true (some 0) (by decide) (by decide),
    selects_eq_rowTest _ 0x14 false false false false (some 0) (by decide) (by decide),
    selects_eq_rowTest _ 0x14 false false false false (some 1) (by decide) (by decide),
    selects_eq_rowTest _ 0x15 false false false true (some 0) (by decide) (by decide),
    selects_eq_rowTest _ 0x16 false false true true (some 0) (by decide) (by decide),
    selects_eq_rowTest _ 0x17 false false true true (some 0) (by decide) (by decide),
    selects_eq_rowTest _ 0x20 false false true true (some 0) (by decide) (by decide),
    selects_eq_rowTest _ 0x21 false false true true (some 0) (by decide) (by decide),
    selects_eq_rowTest _ 0x30 false false false true (some 0) (by decide) (by decide),
    selects_eq_rowTest _ 0x31 true false false true (some 0) (by decide) (by decide),
    selects_eq_rowTest _ 0x32 false false false false (some 0) (by decide) (by decide),
    selects_eq_rowTest _ 0x32 false false false false (some 1) (by decide) (by decide),
    selects_eq_rowTest _ 0x33 false false true true (some 0) (by decide) (by decide),
    selects_eq_rowTest _ 0x34 true false false true (some 0) (by decide) (by decide),
    selects_eq_rowTest _ 0x35 true true true true (some 0) (by decide) (by decide)]

/-- The outcome of the first test that holds, as R50 has it. -/
def firstTest : List (Bool × Option Instr) → Except Rejection Instr
  | [] => .error .noMatchingRow
  | (true, none) :: _ => .error .selectorAboveEight
  | (true, some i) :: _ => if i.wellFormed then .ok i else .error .equalDestinations
  | (false, _) :: rest => firstTest rest

theorem firstTest_find (rows : List OpcodeRow) (c : HostWord) :
    (match rows.find? (·.selects c) with
      | none => .error .noMatchingRow
      | some row =>
        match row.build (fieldsOf c) with
        | none => .error .selectorAboveEight
        | some i => if i.wellFormed then .ok i else .error .equalDestinations) =
      firstTest (rows.map fun row => (row.selects c, row.build (fieldsOf c))) := by
  induction rows with
  | nil => rfl
  | cons row rest ih =>
    rw [List.map_cons, List.find?_cons]
    cases hs : row.selects c
    · exact ih
    · cases hb : row.build (fieldsOf c) with
      | none => simp [firstTest, hb]
      | some i => simp [firstTest, hb]

/-- The decoder as tests on the fields of the word. -/
theorem decode_eq_firstTest (c : HostWord) : decode c = firstTest (tableTests (fieldsOf c)) := by
  rw [← opcodeTable_tests, ← firstTest_find]
  rfl

end Sys2Proof
end

