-- ==== Sys2Proof/Laws/HostPort.lean ====
section
/-! SUPPORT. The register map offset by offset, and what a step does for each kind of transaction. -/

namespace Sys2Proof.Machine

/-- Limb `j` of `x[i]` stands at its offset (R31). -/
theorem hostRegAt_limbOffset : ∀ (i : Reg) (j : Fin 8), hostRegAt (limbOffset i j) = some (.limbOf i j) := by decide

@[simp] theorem hostRegAt_cmd : hostRegAt 0x200#10 = some .cmd := by decide
@[simp] theorem hostRegAt_status : hostRegAt 0x204#10 = some .status := by decide
@[simp] theorem hostRegAt_fcause : hostRegAt 0x208#10 = some .fcause := by decide
@[simp] theorem hostRegAt_fcmd : hostRegAt 0x20C#10 = some .fcmd := by decide
@[simp] theorem hostRegAt_ctrl : hostRegAt 0x210#10 = some .ctrl := by decide
@[simp] theorem hostRegAt_ident : hostRegAt 0x214#10 = some .ident := by decide

/-- Only offset 0x200 names CMD. -/
theorem eq_of_hostRegAt_cmd {off : Offset} (h : hostRegAt off = some .cmd) : off = 0x200 := by
  unfold hostRegAt at h
  split_ifs at h <;> first | assumption | cases h

/-- Only offset 0x210 names CTRL. -/
theorem eq_of_hostRegAt_ctrl {off : Offset} (h : hostRegAt off = some .ctrl) : off = 0x210 := by
  unfold hostRegAt at h
  split_ifs at h <;> first | assumption | cases h

/-- An offset that is no multiple of 4 names nothing (R33). -/
theorem hostRegAt_misaligned {off : Offset} (h : off.toNat % 4 ≠ 0) : hostRegAt off = none := by
  unfold hostRegAt
  rw [if_pos]
  intro e
  apply h
  have := congrArg BitVec.toNat e
  simpa [BitVec.extractLsb_toNat] using this

/-- An offset of 0x218 or more names nothing (R31: reserved). -/
theorem hostRegAt_reserved {off : Offset} (h : 0x218 ≤ off.toNat) : hostRegAt off = none := by
  have h9 : off.extractLsb 9 9 ≠ 0 := by
    intro e
    have := congrArg BitVec.toNat e
    simp only [BitVec.extractLsb_toNat, Nat.shiftRight_eq_div_pow] at this
    have := off.isLt
    simp at *
    omega
  have hne : ∀ k : Offset, k.toNat < 0x218 → off ≠ k := fun k hk e => by subst e; omega
  unfold hostRegAt
  split_ifs <;> first | rfl | (exact absurd ‹_› h9) | (exact absurd ‹_› (hne _ (by decide)))

/-- With no transaction to come the step changes nothing (log 5). -/
theorem step_idle {s : State} (h : s.pending = []) : step s = .next s := by
  simp [step, serveHost, h]

/-- A step carries out the host's next transaction. -/
theorem step_transact {s : State} {a : Transaction} {rest : List Transaction} (h : s.pending = a :: rest) :
    step s = transact { s with pending := rest } a := by
  simp [step, serveHost, h]

/-- Every read is answered, with no effect on the unit (R35). -/
theorem transact_read (s : State) (w : Width) (off : Offset) :
    ∃ r, transact s (.read w off) = .next (s.answer r) := by
  by_cases hw : w = .bits32
  · cases h : hostRegAt off with
    | none => exact ⟨.err, by simp [transact, hw, h]⟩
    | some r => exact ⟨hostRead s r, by simp [transact, hw, h]⟩
  · exact ⟨.err, by simp [transact, hw]⟩

/-- What a 32-bit write of a word to CMD does. -/
theorem transact_cmd (s : State) (c : HostWord) :
    transact s (.write .bits32 0x200 c) = deliverCommand (s.answer .ok) c := by
  simp [transact, hostWrite]

/-- The three ways a CMD write ends (R24, R50, R106). -/
theorem deliverCommand_cases (s : State) (c : HostWord) :
    (s.fault = true ∧ deliverCommand s c = .next s) ∨
    (s.fault = false ∧ (∃ e, decode c = .error e) ∧ deliverCommand s c = .next (s.raiseFault .illegalCmd c)) ∨
    (s.fault = false ∧ ∃ i, decode c = .ok i ∧ deliverCommand s c = exec i s) := by
  unfold deliverCommand
  cases hf : s.fault with
  | true => exact .inl ⟨rfl, by simp⟩
  | false =>
    cases hd : decode c with
    | error e => exact .inr (.inl ⟨rfl, ⟨e, rfl⟩, by simp⟩)
    | ok i => exact .inr (.inr ⟨rfl, i, rfl, by simp⟩)

/-- The four ways a write ends: a limb is replaced, a command is delivered, CTRL is written, or nothing happens. -/
theorem transact_write_cases (s : State) (w : Width) (off : Offset) (d : HostWord) :
    (∃ i j, transact s (.write w off d) = .next ((s.setReg i (setLimb (s.reg i) j d)).answer .ok)) ∨
    (w = .bits32 ∧ off = 0x200 ∧ transact s (.write w off d) = deliverCommand (s.answer .ok) d) ∨
    (w = .bits32 ∧ off = 0x210 ∧ transact s (.write w off d) = .next ((writeCtrl s d).answer .ok)) ∨
    transact s (.write w off d) = .next (s.answer .err) := by
  unfold transact
  by_cases hw : w = .bits32
  · subst hw
    simp only [if_true, true_and]
    cases h : hostRegAt off with
    | none => exact .inr (.inr (.inr rfl))
    | some r =>
      cases r with
      | limbOf i j => exact .inl ⟨i, j, rfl⟩
      | cmd => exact .inr (.inl ⟨eq_of_hostRegAt_cmd h, rfl⟩)
      | ctrl => exact .inr (.inr (.inl ⟨eq_of_hostRegAt_ctrl h, rfl⟩))
      | status => exact .inr (.inr (.inr rfl))
      | fcause => exact .inr (.inr (.inr rfl))
      | fcmd => exact .inr (.inr (.inr rfl))
      | ident => exact .inr (.inr (.inr rfl))
  · simp [hw]

end Sys2Proof.Machine
end

