-- ==== Sys2Proof/Laws/PerInstr.lean ====
section
/-! SUPPORT. Statements about each command as syntax, one lemma per constructor. -/

namespace Sys2Proof.Laws

/-- The encoding of a command holds exactly the fields its format gives it (R47). -/
def EncodedFields.Statement (i : Instr) : Prop := fieldsOf (encode i) = fieldsOfInstr i

theorem EncodedFields.ldc (rd : Reg) (k : RomEntry) : EncodedFields.Statement (.ldc rd k) :=
  fieldsOf_wordOfFields _
theorem EncodedFields.addw (rd rs1 rs2 : Reg) : EncodedFields.Statement (.addw rd rs1 rs2) :=
  fieldsOf_wordOfFields _
theorem EncodedFields.subw (rd rs1 rs2 : Reg) : EncodedFields.Statement (.subw rd rs1 rs2) :=
  fieldsOf_wordOfFields _
theorem EncodedFields.mulw (rd rs1 rs2 : Reg) : EncodedFields.Statement (.mulw rd rs1 rs2) :=
  fieldsOf_wordOfFields _
theorem EncodedFields.mulhw (rd rs1 rs2 : Reg) : EncodedFields.Statement (.mulhw rd rs1 rs2) :=
  fieldsOf_wordOfFields _
theorem EncodedFields.muldivF (rd rs1 rs2 rs3 : Reg) : EncodedFields.Statement (.muldivF rd rs1 rs2 rs3) :=
  fieldsOf_wordOfFields _
theorem EncodedFields.muldivC (rd rs1 rs2 rs3 : Reg) : EncodedFields.Statement (.muldivC rd rs1 rs2 rs3) :=
  fieldsOf_wordOfFields _
theorem EncodedFields.divru (rd rs1 rs2 : Reg) : EncodedFields.Statement (.divru rd rs1 rs2) :=
  fieldsOf_wordOfFields _
theorem EncodedFields.msb (rd rs1 : Reg) : EncodedFields.Statement (.msb rd rs1) :=
  fieldsOf_wordOfFields _
theorem EncodedFields.lsb (rd rs1 : Reg) : EncodedFields.Statement (.lsb rd rs1) :=
  fieldsOf_wordOfFields _
theorem EncodedFields.t2p (rd rs1 : Reg) : EncodedFields.Statement (.t2p rd rs1) :=
  fieldsOf_wordOfFields _
theorem EncodedFields.p2t (rd rs1 : Reg) : EncodedFields.Statement (.p2t rd rs1) :=
  fieldsOf_wordOfFields _
theorem EncodedFields.bmpos (rd rd2 rs1 : Reg) : EncodedFields.Statement (.bmpos rd rd2 rs1) :=
  fieldsOf_wordOfFields _
theorem EncodedFields.bmflip (rs1 rs2 : Reg) : EncodedFields.Statement (.bmflip rs1 rs2) :=
  fieldsOf_wordOfFields _
theorem EncodedFields.bmnextGt (rd rd2 rs1 rs2 : Reg) : EncodedFields.Statement (.bmnextGt rd rd2 rs1 rs2) :=
  fieldsOf_wordOfFields _
theorem EncodedFields.bmnextLe (rd rd2 rs1 rs2 : Reg) : EncodedFields.Statement (.bmnextLe rd rd2 rs1 rs2) :=
  fieldsOf_wordOfFields _
theorem EncodedFields.bmld (rd rs1 : Reg) : EncodedFields.Statement (.bmld rd rs1) :=
  fieldsOf_wordOfFields _
theorem EncodedFields.bmst (rs1 rs2 : Reg) : EncodedFields.Statement (.bmst rs1 rs2) :=
  fieldsOf_wordOfFields _
theorem EncodedFields.bmclr : EncodedFields.Statement .bmclr :=
  fieldsOf_wordOfFields _

end Sys2Proof.Laws
end

