-- ==== Sys2Proof/Tests/Slice0.lean ====
section
/-! SUPPORT. Tests. Expected words are read off the encoding rules (spec/30_encoding.md R46, R47, R49), expected results
off the tables of spec/95_test_vectors.md (the vector is named at each test). Last, a witness for the hypotheses of
every statement that has some. -/

namespace Sys2Proof.Tests

open Sys2Proof.Machine

/-! ## Well-formedness (R51) -/

theorem test_bmpos_equal_destinations_refused : (Instr.bmpos 4 4 2).wellFormed = false := by decide
theorem test_bmnextGt_equal_destinations_refused : (Instr.bmnextGt 15 15 2 3).wellFormed = false := by decide
theorem test_bmnextLe_equal_destinations_refused : (Instr.bmnextLe 0 0 2 3).wellFormed = false := by decide

/-! ## Decoding: one word per constructor, a different register in each operand field (R46, R47, R49) -/

/-- The command a word decodes to, none if it is illegal. -/
def cmd (c : HostWord) : Option Instr := (decode c).toOption

/-- Why a word is illegal. -/
def why (c : HostWord) : Option Rejection :=
  match decode c with
  | .ok _ => none
  | .error r => some r

theorem test_decode_ldc : cmd 0x01F00008 = some (.ldc 15 .maxTick) := by decide
theorem test_decode_addw : cmd 0x109AB000 = some (.addw 9 10 11) := by decide
theorem test_decode_subw : cmd 0x119AB000 = some (.subw 9 10 11) := by decide
theorem test_decode_mulw : cmd 0x129AB000 = some (.mulw 9 10 11) := by decide
theorem test_decode_mulhw : cmd 0x139AB000 = some (.mulhw 9 10 11) := by decide
theorem test_decode_muldivF : cmd 0x149ABC00 = some (.muldivF 9 10 11 12) := by decide
theorem test_decode_muldivC : cmd 0x149ABC01 = some (.muldivC 9 10 11 12) := by decide
theorem test_decode_divru : cmd 0x159AB000 = some (.divru 9 10 11) := by decide
theorem test_decode_msb : cmd 0x169A0000 = some (.msb 9 10) := by decide
theorem test_decode_lsb : cmd 0x179A0000 = some (.lsb 9 10) := by decide
theorem test_decode_t2p : cmd 0x209A0000 = some (.t2p 9 10) := by decide
theorem test_decode_p2t : cmd 0x219A0000 = some (.p2t 9 10) := by decide
theorem test_decode_bmpos : cmd 0x309AB000 = some (.bmpos 9 10 11) := by decide
theorem test_decode_bmflip : cmd 0x310AB000 = some (.bmflip 10 11) := by decide
theorem test_decode_bmnextGt : cmd 0x329ABC00 = some (.bmnextGt 9 10 11 12) := by decide
theorem test_decode_bmnextLe : cmd 0x329ABC01 = some (.bmnextLe 9 10 11 12) := by decide
theorem test_decode_bmld : cmd 0x339A0000 = some (.bmld 9 10) := by decide
theorem test_decode_bmst : cmd 0x340AB000 = some (.bmst 10 11) := by decide
theorem test_decode_bmclr : cmd 0x35000000 = some .bmclr := by decide

/-- Illegal words are refused by name: no row, an unused field that is not zero, a selector above 8, equal destinations
(R50, R51, R53). -/
theorem test_decode_illegal :
    why 0x00000000 = some .noMatchingRow ∧ why 0x10012001 = some .noMatchingRow ∧
    why 0x31123000 = some .noMatchingRow ∧ why 0x35000001 = some .noMatchingRow ∧
    why 0x01000009 = some .selectorAboveEight ∧ why 0x30112000 = some .equalDestinations ∧
    why 0x32112301 = some .equalDestinations := by decide

/-- The table word of the host: a 32-bit row decodes, a row with an illegal zero operand (equal destinations) does not. -/
theorem test_decodeTableWord :
    decodeTableWord 32 0x10000000 = some (.addw 0 0 0) ∧ decodeTableWord 32 0x32010001 = some (.bmnextLe 0 1 0 0) ∧
    decodeTableWord 32 0x30000000 = none := by decide

/-! ## One step on a small state -/

/-- The reset state with some registers written. -/
def st (l : List (Reg × Int)) : State := l.foldl (fun s p => s.setReg p.1 (enc p.2)) State.reset

/-- The reset state with some registers and some bitmap words written. -/
def stBm (l : List (Reg × Int)) (m : List (Int × Int)) : State :=
  m.foldl (fun s p => s.bmWrite (wordIndex p.1) (enc p.2)) (st l)

/-- The state after one step that delivers the word `c`, if there is one. -/
def after (s : State) (c : Nat) : Option State :=
  match step (s.withFetchWord 32 c) with
  | .next t => some t
  | .fault _ => none
  | .refused _ => none

/-- Register `r` afterwards, unsigned. -/
def uOf (s : State) (c : Nat) (r : Reg) : Option Nat := (after s c).map (·.u r)

/-- Register `r` afterwards, signed. -/
def sOf (s : State) (c : Nat) (r : Reg) : Option Int := (after s c).map (·.s r)

/-- The two destinations of BMPOS and BMNEXT afterwards, the first signed. -/
def pairOf (s : State) (c : Nat) : Option (Int × Nat) := (after s c).map fun t => (t.s 0, t.u 1)

/-- The fault latched afterwards (`noFault` if none). -/
def causeOf (s : State) (c : Nat) : Option Cause := (after s c).map (·.fcause)

/-- `2^256 - 1`. -/
def max256 : Int := 2 ^ 256 - 1

/-- `2^255`. -/
def top255 : Int := 2 ^ 255

/-- 2.1: `ldc w15, 8` gives 0xd89e8. -/
theorem test_ldc_maxTick : uOf (st []) 0x01F00008 15 = some 0xd89e8 := by decide
/-- 2.1: `ldc w0, 6`. -/
theorem test_ldc_maxSqrtRatio :
    uOf (st []) 0x01000006 0 = some 0xfffd8963efd1fc6a506488495d951d5263988d26 := by decide
/-- 2.2: MAX + 1 = 0. -/
theorem test_addw_wraps : uOf (st [(1, max256), (2, 1)]) 0x10012000 0 = some 0 := by decide
/-- 2.2: 5 - 7 = enc(-2). -/
theorem test_subw_wraps : sOf (st [(1, 5), (2, 7)]) 0x11012000 0 = some (-2) := by decide
/-- 2.2: MAX * MAX, low word 1. -/
theorem test_mulw_low : uOf (st [(1, max256), (2, max256)]) 0x12012000 0 = some 1 := by decide
/-- 2.2: MAX * 2, high word 1. -/
theorem test_mulhw_high : uOf (st [(1, max256), (2, 2)]) 0x13012000 0 = some 1 := by decide
/-- V-MD1: 7*3/2 rounds down to 10. -/
theorem test_muldivF_floor : uOf (st [(1, 7), (2, 3), (3, 2)]) 0x14012300 0 = some 10 := by decide
/-- V-MD11b: 0*0/0 is DIV_ZERO. -/
theorem test_muldivF_zero : causeOf (st []) 0x14012300 = some .divZero := by decide
/-- V-MD12: floor MAX with a remainder, the increment overflows. -/
theorem test_muldivC_increment :
    causeOf (st [(1, 23), (2, 0x21642c8590b21642c8590b21642c8590b21642c8590b21642c8590b21642c859), (3, 3)])
      0x14012301 = some .unrepresentable := by decide
/-- V-MD1: 7*3/2 rounds up to 11. -/
theorem test_muldivC_ceil : uOf (st [(1, 7), (2, 3), (3, 2)]) 0x14012301 0 = some 11 := by decide
/-- 2.4: MAX over 2 is TOP: the sum of the rounding is not wrapped. -/
theorem test_divru_no_wrap : uOf (st [(1, max256), (2, 2)]) 0x15012000 0 = some (2 ^ 255) := by decide
/-- 2.5: TOP + 1. -/
theorem test_msb_top : uOf (st [(1, top255 + 1)]) 0x16010000 0 = some 255 := by decide
/-- 2.5: 0xff00. -/
theorem test_lsb_ff00 : uOf (st [(1, 0xff00)]) 0x17010000 0 = some 8 := by decide
/-- 2.5: zero. -/
theorem test_lsb_zero : causeOf (st []) 0x17010000 = some .zeroScan := by decide
/-- 2.6: tick -1. -/
theorem test_t2p_minus_one :
    uOf (st [(1, -1)]) 0x20010000 0 = some 79224201403219477170569942574 := by decide
/-- 2.6: tick 48000. -/
theorem test_t2p_48000 : uOf (st [(1, 48000)]) 0x20010000 0 = some 873241221460953509178849710283 := by decide
/-- V-P2T-5k: the lower candidate is taken. -/
theorem test_p2t_low : sOf (st [(1, 2653829984021)]) 0x21010000 0 = some (-758741) := by decide
/-- V-P2T-7: the upper bound is exclusive. -/
theorem test_p2t_upper_bound :
    causeOf (st [(1, 1461446703485210103287273052203988822378723970342)]) 0x21010000 = some .priceRange := by
  decide
/-- 2.8: -257 is bit 255 of word -2. -/
theorem test_bmpos_negative : pairOf (st [(2, -257)]) 0x30012000 = some (-2, 255) := by decide
/-- 2.9: BMFLIP 887272 at spacing 887272 toggles bit 1 of word 0. -/
theorem test_bmflip_compressed_one :
    (after (st [(2, 887272), (3, 887272)]) 0x31023000).map (·.bm) = some [(0, 2)] := by decide
/-- 2.9: misalignment is tested before the range. -/
theorem test_bmflip_priority : causeOf (st [(2, 887273), (3, 2)]) 0x31023000 = some .tickMisaligned := by decide
/-- 2.9, set B: from -241 the tick -240. -/
theorem test_bmnextGt_floor :
    pairOf (stBm [(2, -241), (3, 60)] [(-1, 2 ^ 252)]) 0x32012300 = some (-240, 1) := by decide +kernel
/-- 2.9, set B: from 887272 the result is above the last tick, not clamped. -/
theorem test_bmnextGt_unclamped : pairOf (st [(2, 887272), (3, 60)]) 0x32012300 = some (890820, 0) := by decide
/-- 2.9, set B: from -239 the tick -240. -/
theorem test_bmnextLe_floor :
    pairOf (stBm [(2, -239), (3, 60)] [(-1, 2 ^ 252)]) 0x32012301 = some (-240, 1) := by decide
/-- 2.9: the spacing is tested first. -/
theorem test_bmnextLe_priority : causeOf (st [(2, 900000), (3, -1)]) 0x32012301 = some .spacingRange := by decide
/-- 2.10: a stored word is loaded. -/
theorem test_bmld_lowest : uOf (stBm [(1, -32768)] [(-32768, max256)]) 0x33010000 0 = some (2 ^ 256 - 1) := by
  decide
/-- 2.10: 32768 is no index. -/
theorem test_bmld_range : causeOf (st [(1, 32768)]) 0x33010000 = some .bmIndexRange := by decide
/-- 2.10: the highest index; its key is 0x7FFF. -/
theorem test_bmst_highest :
    (after (st [(1, 32767), (2, 4)]) 0x34012000).map (·.bm) = some [(0x7FFF, 4)] := by decide
/-- 2.10: BMCLR empties the bitmap. -/
theorem test_bmclr : (after (stBm [] [(-1, 4), (5, 7)]) 0x35000000).map (·.bm) = some [] := by decide
/-- 2.11: an illegal word is ILLEGAL_CMD and its word is recorded. -/
theorem test_illegal :
    (after (st []) 0x01000009).map (fun t => (t.fault, t.fcause, t.fcmd)) =
      some (true, .illegalCmd, 0x01000009) := by decide

/-! ## Witnesses: states and operands that meet the hypotheses of each statement, clause by clause -/

/-- A state with transactions to come. -/
def queued (s : State) (l : List Transaction) : State := { s with pending := l }

/-- A state with a latched DIV_ZERO of `divru w0,w0,w0`. -/
def faulted : State := (st []).raiseFault .divZero 0x15000000

/-- The write of a word to CMD. -/
def toCmd (c : HostWord) : Transaction := .write .bits32 0x200 c

theorem witness_DecodeOfEncode :
    (Instr.bmpos 0 15 15).wellFormed = true ∧ (Instr.ldc 15 .maxTick).wellFormed = true := by decide
theorem witness_EncodeOfDecode : decode 0x01F00008 = .ok (.ldc 15 .maxTick) ∧ decode 0x35000000 = .ok .bmclr :=
  ⟨rfl, rfl⟩
theorem witness_StepExecutesDecodedCommand :
    (queued (st []) [toCmd 0x10012000]).pending = .write .bits32 0x200 0x10012000 :: [] ∧
    (queued (st []) [toCmd 0x10012000]).fault = false ∧ decode 0x10012000 = .ok (.addw 0 1 2) := ⟨rfl, rfl, rfl⟩
theorem witness_IllegalWordFaults :
    (queued (st []) [toCmd 0x01000009]).pending = .write .bits32 0x200 0x01000009 :: [] ∧
    (queued (st []) [toCmd 0x01000009]).fault = false ∧ ¬ LegalFields (fieldsOf 0x01000009) ∧
    ¬ LegalFields (fieldsOf 0x30112000) ∧ ¬ LegalFields (fieldsOf 0) := by
  refine ⟨rfl, rfl, ?_, ?_, ?_⟩ <;> unfold LegalFields <;> decide
theorem witness_LatchedFaultDiscardsCommands :
    (queued faulted [toCmd 0]).pending = .write .bits32 0x200 0 :: [] ∧ (queued faulted [toCmd 0]).fault = true :=
  ⟨rfl, rfl⟩
theorem witness_FaultEntryRecordsAndWritesNothing :
    ∃ t, (queued (st []) [toCmd 0x15000000]).pending = .write .bits32 0x200 0x15000000 :: [] ∧
      (queued (st []) [toCmd 0x15000000]).fault = false ∧
      step (queued (st []) [toCmd 0x15000000]) = .next t ∧ t.fault = true := ⟨_, rfl, rfl, rfl, rfl⟩
theorem witness_CommandsRaiseOnlyTheirCauses :
    ∃ t, (Instr.divru 0 0 0).wellFormed = true ∧ (st []).fault = false ∧ exec (.divru 0 0 0) (st []) = .next t ∧
      t.fault = true := ⟨_, rfl, rfl, rfl, rfl⟩
theorem witness_LatchIsSetOnlyByCommands :
    ∃ t, step (queued (st []) [toCmd 0x15000000]) = .next t ∧
      (queued (st []) [toCmd 0x15000000]).fault = false ∧ t.fault = true := ⟨_, rfl, rfl, rfl⟩
theorem witness_LatchIsClearedOnlyByCtrl :
    ∃ t, step (queued faulted [.write .bits32 0x210 1]) = .next t ∧
      (queued faulted [.write .bits32 0x210 1]).fault = true ∧ t.fault = false := ⟨_, rfl, rfl, rfl⟩
theorem witness_CtrlBitZeroClearsLatch :
    (queued faulted [.write .bits32 0x210 0xFFFFFFFF]).pending = .write .bits32 0x210 0xFFFFFFFF :: [] ∧
    (0xFFFFFFFF : HostWord).toNat % 2 = 1 ∧
    (queued faulted [.write .bits32 0x210 0xFFFFFFFE]).pending = .write .bits32 0x210 0xFFFFFFFE :: [] ∧
    (0xFFFFFFFE : HostWord).toNat % 2 = 0 := ⟨rfl, rfl, rfl, rfl⟩
theorem witness_LimbWriteReplacesItsBits :
    (queued (st []) [.write .bits32 0x1FC 1]).pending =
      .write .bits32 (BitVec.ofNat 10 (32 * (15 : Reg).val + 4 * (7 : Fin 8).val)) 1 :: [] ∧
    (queued (st []) [.write .bits32 0 1]).pending =
      .write .bits32 (BitVec.ofNat 10 (32 * (0 : Reg).val + 4 * (0 : Fin 8).val)) 1 :: [] := ⟨rfl, rfl⟩
theorem witness_ControlRegisterReads :
    (queued faulted [.read .bits32 0x204]).pending = .read .bits32 0x204 :: [] ∧
    (queued faulted [.read .bits32 0x208]).pending = .read .bits32 0x208 :: [] ∧
    (queued faulted [.read .bits32 0x20C]).pending = .read .bits32 0x20C :: [] ∧
    (queued (st []) [.read .bits32 0x214]).pending = .read .bits32 0x214 :: [] := ⟨rfl, rfl, rfl, rfl⟩
theorem witness_WrongWidthOrAlignmentIsErr :
    (queued (st []) [.read .bits64 0]).pending = .read .bits64 0 :: [] ∧
    (Width.bits64 ≠ .bits32 ∨ (0 : Offset).toNat % 4 ≠ 0) ∧
    (queued (st []) [.write .bits32 0x3FF 7]).pending = .write .bits32 0x3FF 7 :: [] ∧
    (Width.bits32 ≠ .bits32 ∨ (0x3FF : Offset).toNat % 4 ≠ 0) := ⟨rfl, by decide, rfl, by decide⟩
theorem witness_ForbiddenAccessIsErr :
    (queued (st []) [.read .bits32 0x218]).pending = .read .bits32 0x218 :: [] ∧
    ((0x218 : Offset) = 0x200 ∨ (0x218 : Offset) = 0x210 ∨ 0x218 ≤ (0x218 : Offset).toNat) ∧
    (queued (st []) [.write .bits32 0x214 7]).pending = .write .bits32 0x214 7 :: [] ∧
    ((0x214 : Offset) = 0x204 ∨ (0x214 : Offset) = 0x208 ∨ (0x214 : Offset) = 0x20C ∨ (0x214 : Offset) = 0x214 ∨
      0x218 ≤ (0x214 : Offset).toNat) := ⟨rfl, by decide, rfl, by decide⟩
theorem witness_HostReadsChangeNothing :
    (queued (st []) [.read .bits8 0x1FF]).pending = .read .bits8 0x1FF :: [] := rfl
theorem witness_BusWindowIsAtBase :
    Config.base + 0x400 < Config.base ∨ Config.base + 0x3FF < Config.base + 0x400 := by omega
theorem witness_StepAlwaysAnswers : (st [(1, 7)]).pending = [] ∧ faulted.pending = [] := ⟨rfl, rfl⟩
theorem witness_BitmapStaysCanonical :
    ∃ t, BitmapCanonical (queued (stBm [] [(-1, 5)]) [toCmd 0x34012000]) ∧
      step (queued (stBm [] [(-1, 5)]) [toCmd 0x34012000]) = .next t := ⟨_, rfl, rfl⟩
theorem witness_LatchStaysConsistent :
    ∃ t, LatchConsistent faulted ∧ step faulted = .next t := by
  refine ⟨_, ⟨fun h => absurd h (by decide), fun _ => ?_⟩, rfl⟩
  change Cause.divZero ∈ causesOf (.divru 0 0 0)
  decide
theorem witness_ResetMeetsInvariants : Memory.wf [(0, 1), (65535, 2)] = true := by decide
theorem witness_CommandsWriteOnlyWhatTheyName : ∃ t, exec (.bmst 1 2) (st []) = .next t := ⟨_, rfl⟩
theorem witness_CommandsReadOnlyWhatTheyName :
    ∃ t t', (st []).fault = false ∧ (st [(9, 7)]).fault = false ∧
      (∀ r ∈ (Instr.addw 0 1 2).sources, (st []).reg r = (st [(9, 7)]).reg r) ∧ (st []).bm = (st [(9, 7)]).bm ∧
      exec (.addw 0 1 2) (st []) = .next t ∧ exec (.addw 0 1 2) (st [(9, 7)]) = .next t' :=
  ⟨_, _, rfl, rfl, by decide, rfl, rfl, rfl⟩
theorem witness_LdcLoadsRomEntry :
    (⟨0x01, 0, 0, 0, 0, 9⟩ : Fields).op = 0x01 ∧ 8 < (⟨0x01, 0, 0, 0, 0, 9⟩ : Fields).fn.toNat ∧
    (⟨0x01, 0, 1, 0, 0, 0⟩ : Fields).f2 ≠ 0 := by decide
theorem witness_LdcGivesTheNineConstants : 0 ∈ List.range 9 ∧ 8 ∈ List.range 9 := by decide

/-- Both sides: MAX*2 has the high word 1; over 1 it does not fit, over 2 it does. -/
theorem witness_ProductHalvesAreExact :
    (st [(1, max256), (2, 2), (3, 1)]).fault = false ∧ (st [(1, max256), (2, 2), (3, 1)]).u 3 ≠ 0 ∧
    causeOf (st [(1, max256), (2, 2), (3, 1)]) 0x14012300 = some .unrepresentable ∧
    causeOf (st [(1, max256), (2, 2), (3, 2)]) 0x14012300 = some .noFault := by decide
theorem witness_MuldivFloors :
    (st []).u 3 = 0 ∧
    ((st [(1, top255), (2, 2), (3, 1)]).u 3 ≠ 0 ∧
      2 ^ 256 ≤ (st [(1, top255), (2, 2), (3, 1)]).u 1 * (st [(1, top255), (2, 2), (3, 1)]).u 2 /
        (st [(1, top255), (2, 2), (3, 1)]).u 3) ∧
    ((st [(1, max256), (2, max256), (3, max256)]).u 3 ≠ 0 ∧
      (st [(1, max256), (2, max256), (3, max256)]).u 1 * (st [(1, max256), (2, max256), (3, max256)]).u 2 /
        (st [(1, max256), (2, max256), (3, max256)]).u 3 < 2 ^ 256) := by decide

/-- The operands of V-MD12: the floor is MAX with a remainder. -/
def mdTwelve : State := st [(1, 23), (2, 0x21642c8590b21642c8590b21642c8590b21642c8590b21642c8590b21642c859), (3, 3)]

theorem witness_MuldivCeils :
    (st []).u 3 = 0 ∧
    (mdTwelve.u 3 ≠ 0 ∧ 2 ^ 256 ≤ (mdTwelve.u 1 * mdTwelve.u 2 + mdTwelve.u 3 - 1) / mdTwelve.u 3) ∧
    ((st [(1, max256), (2, 1), (3, 1)]).u 3 ≠ 0 ∧
      ((st [(1, max256), (2, 1), (3, 1)]).u 1 * (st [(1, max256), (2, 1), (3, 1)]).u 2 +
        (st [(1, max256), (2, 1), (3, 1)]).u 3 - 1) / (st [(1, max256), (2, 1), (3, 1)]).u 3 < 2 ^ 256) := by
  decide
theorem witness_MuldivFloorIsExact :
    ∃ t, (st [(1, 7), (2, 3), (3, 2)]).fault = false ∧
      exec (.muldivF 0 1 2 3) (st [(1, 7), (2, 3), (3, 2)]) = .next t ∧ t.fault = false :=
  ⟨_, rfl, rfl, by decide⟩

/-- The three clauses: both fault, only the ceiling faults, none faults. -/
theorem witness_RoundingModesDifferByRemainder :
    (∃ f c, (st []).fault = false ∧ exec (.muldivF 0 1 2 3) (st []) = .next f ∧
      exec (.muldivC 0 1 2 3) (st []) = .next c ∧ f.fault = true) ∧
    (∃ f c, mdTwelve.fault = false ∧ exec (.muldivF 0 1 2 3) mdTwelve = .next f ∧
      exec (.muldivC 0 1 2 3) mdTwelve = .next c ∧ f.fault = false ∧ c.fault = true) ∧
    (∃ f c, (st [(3, 1)]).fault = false ∧ exec (.muldivF 0 1 2 3) (st [(3, 1)]) = .next f ∧
      exec (.muldivC 0 1 2 3) (st [(3, 1)]) = .next c ∧ f.fault = false ∧ c.fault = false) :=
  ⟨⟨_, _, rfl, rfl, rfl, by decide⟩, ⟨_, _, rfl, rfl, rfl, by decide, by decide⟩,
    ⟨_, _, rfl, rfl, rfl, by decide, by decide⟩⟩
theorem witness_DivruCeils : (st []).u 2 = 0 ∧ (st [(1, max256), (2, 1)]).u 2 ≠ 0 := by decide
theorem witness_MsbFindsHighestBit : (st []).u 1 = 0 ∧ (st [(1, 1)]).u 1 ≠ 0 ∧ (st [(1, max256)]).u 1 ≠ 0 := by
  decide
theorem witness_LsbFindsLowestBit : (st []).u 1 = 0 ∧ (st [(1, 1)]).u 1 ≠ 0 ∧ (st [(1, top255)]).u 1 ≠ 0 := by
  decide
theorem witness_T2pClimbsTheLadder :
    887272 < ((st [(1, 887273)]).s 1).natAbs ∧ 887272 < ((st [(1, -887273)]).s 1).natAbs ∧
    ((st [(1, 887272)]).s 1).natAbs ≤ 887272 ∧ ((st [(1, -887272)]).s 1).natAbs ≤ 887272 := by decide
theorem witness_T2pReferenceValues :
    (st []).s 1 = 0 ∧ (st [(1, -887272)]).s 1 = -887272 ∧ (st [(1, 887272)]).s 1 = 887272 := by decide
theorem witness_T2pIsStrictlyIncreasing :
    -887272 ≤ (st [(1, -887272)]).s 1 ∧ (st [(1, -887272)]).s 1 < (st [(1, 887272)]).s 1 ∧
    (st [(1, 887272)]).s 1 ≤ 887272 := by decide

/-- The state whose register 1 holds a price. -/
def priced (p : Int) : State := st [(1, p)]

theorem witness_P2tComputesTheLogarithm :
    (priced 4295128738).u 1 < 4295128739 ∧
    1461446703485210103287273052203988822378723970342 ≤ (priced 1461446703485210103287273052203988822378723970342).u 1 ∧
    4295128739 ≤ (priced 4295128739).u 1 ∧
    (priced 1461446703485210103287273052203988822378723970341).u 1 <
      1461446703485210103287273052203988822378723970342 := by decide
theorem witness_P2tEdgeValues :
    (priced 4295128739).u 1 = 4295128739 ∧ (priced (2 ^ 96 - 1)).u 1 = 2 ^ 96 - 1 ∧
    (priced (2 ^ 96)).u 1 = 2 ^ 96 ∧
    (priced 1461446703485210103287273052203988822378723970341).u 1 =
      1461446703485210103287273052203988822378723970341 := by decide
theorem witness_P2tStaysInTickRange :
    4295128739 ≤ (priced 4295128739).u 1 ∧
    (priced 4295128739).u 1 < 1461446703485210103287273052203988822378723970342 := by decide
theorem witness_P2tGivesTheGreatestTick :
    4295128739 ≤ (priced (2 ^ 96)).u 1 ∧ (priced (2 ^ 96)).u 1 < 1461446703485210103287273052203988822378723970342 := by
  decide
theorem witness_RoundTripGivesBackTheTick :
    -887272 ≤ (st [(1, -887272)]).s 1 ∧ (st [(1, 887271)]).s 1 ≤ 887271 ∧ (st [(1, 887272)]).s 1 = 887272 := by
  decide
theorem witness_BmposSplitsTheTick :
    (0 : Reg) ≠ 1 ∧ (st [(2, -887273)]).s 2 < -887272 ∧ 887272 < (st [(2, 887273)]).s 2 ∧
    -887272 ≤ (st [(2, -887272)]).s 2 ∧ (st [(2, 887272)]).s 2 ≤ 887272 := by decide

/-- The state with tick `t` in register 2 and spacing `sp` in register 3. -/
def ticked (t sp : Int) : State := st [(2, t), (3, sp)]

theorem witness_BmflipTogglesOneBit :
    BitmapCanonical (ticked 0 0) ∧ (ticked 0 0).s 3 < 1 ∧ 887272 < (ticked 0 887273).s 3 ∧
    (1 ≤ (ticked 887273 2).s 3 ∧ (ticked 887273 2).s 3 ≤ 887272 ∧ (ticked 887273 2).s 2 % (ticked 887273 2).s 3 ≠ 0) ∧
    (1 ≤ (ticked 887273 1).s 3 ∧ (ticked 887273 1).s 3 ≤ 887272 ∧
      (ticked 887273 1).s 2 % (ticked 887273 1).s 3 = 0 ∧ 887272 < (ticked 887273 1).s 2 / (ticked 887273 1).s 3) ∧
    (1 ≤ (ticked (-887272) 1).s 3 ∧ (ticked (-887272) 1).s 3 ≤ 887272 ∧
      (ticked (-887272) 1).s 2 % (ticked (-887272) 1).s 3 = 0 ∧
      -887272 ≤ (ticked (-887272) 1).s 2 / (ticked (-887272) 1).s 3 ∧
      (ticked (-887272) 1).s 2 / (ticked (-887272) 1).s 3 ≤ 887272) := by
  unfold BitmapCanonical
  decide
theorem witness_FlipTwiceRestores :
    ∃ t u, BitmapCanonical (ticked (-60) 60) ∧ (ticked (-60) 60).fault = false ∧
      exec (.bmflip 2 3) (ticked (-60) 60) = .next t ∧ t.fault = false ∧ exec (.bmflip 2 3) t = .next u := by
  refine ⟨(ticked (-60) 60).bmWrite (-1) (1 <<< 255), ticked (-60) 60, rfl, rfl, ?_, rfl, ?_⟩
  · exact congrArg Host.Outcome.next (by decide : (_ : State) = _)
  · exact congrArg Host.Outcome.next (by decide : (_ : State) = _)

/-- Spacing 1, tick 78, bits 70 and 84 of word 0 set. -/
def searched : State := stBm [(2, 78), (3, 1)] [(0, 2 ^ 70 + 2 ^ 84)]

/-- The clauses of BMNEXT.LE: the spacings 0 and 887273; the ticks -887273 and 887273; a hit at bit 70; a miss. -/
theorem witness_BmnextLeSearchesDown :
    (0 : Reg) ≠ 1 ∧ (ticked 0 0).s 3 < 1 ∧ 887272 < (ticked 0 887273).s 3 ∧
    (1 ≤ (ticked 0 1).s 3 ∧ (ticked (-887273) 1).s 2 / (ticked (-887273) 1).s 3 < -887272 ∧
      887272 < (ticked 887273 1).s 2 / (ticked 887273 1).s 3) ∧
    (((78 : Nat) : Int) = searched.s 2 / searched.s 3 % 256 ∧ 1 ≤ searched.s 3 ∧ searched.s 3 ≤ 887272 ∧
      (searched.bmRead (wordIndex (searched.s 2 / searched.s 3 / 256))).getLsbD 70 = true ∧
      ∀ i < 79, 70 < i →
        (searched.bmRead (wordIndex (searched.s 2 / searched.s 3 / 256))).getLsbD i = false) ∧
    (((24 : Nat) : Int) = (ticked (-887272) 1).s 2 / (ticked (-887272) 1).s 3 % 256 ∧
      -887272 ≤ (ticked (-887272) 1).s 2 / (ticked (-887272) 1).s 3 ∧
      ∀ i < 25, ((ticked (-887272) 1).bmRead
        (wordIndex ((ticked (-887272) 1).s 2 / (ticked (-887272) 1).s 3 / 256))).getLsbD i = false) := by
  decide

/-- The clauses of BMNEXT.GT: as above, the ticks -887274 and 887272 out of range, a hit at bit 84, a miss at -887273. -/
theorem witness_BmnextGtSearchesUp :
    (0 : Reg) ≠ 1 ∧ (ticked 0 0).s 3 < 1 ∧ 887272 < (ticked 0 887273).s 3 ∧
    ((ticked (-887274) 1).s 2 / (ticked (-887274) 1).s 3 + 1 < -887272 ∧
      887272 < (ticked 887272 1).s 2 / (ticked 887272 1).s 3 + 1) ∧
    (((79 : Nat) : Int) = (searched.s 2 / searched.s 3 + 1) % 256 ∧ 1 ≤ searched.s 3 ∧ searched.s 3 ≤ 887272 ∧
      (searched.bmRead (wordIndex ((searched.s 2 / searched.s 3 + 1) / 256))).getLsbD 84 = true ∧
      ∀ i < 84, 79 ≤ i →
        (searched.bmRead (wordIndex ((searched.s 2 / searched.s 3 + 1) / 256))).getLsbD i = false) ∧
    (((24 : Nat) : Int) = ((ticked (-887273) 1).s 2 / (ticked (-887273) 1).s 3 + 1) % 256 ∧
      -887272 ≤ (ticked (-887273) 1).s 2 / (ticked (-887273) 1).s 3 + 1 ∧
      ∀ i < 256, 24 ≤ i → ((ticked (-887273) 1).bmRead
        (wordIndex (((ticked (-887273) 1).s 2 / (ticked (-887273) 1).s 3 + 1) / 256))).getLsbD i = false) := by
  decide +kernel

/-- Two states that differ in a register and in a bitmap word BMNEXT does not inspect. -/
theorem witness_BmnextInspectsOneWord :
    (0 : Reg) ≠ 1 ∧ searched.reg 2 = ((searched.setReg 9 7).bmWrite 5 3).reg 2 ∧
    searched.reg 3 = ((searched.setReg 9 7).bmWrite 5 3).reg 3 ∧ 1 ≤ searched.s 3 ∧ searched.s 3 ≤ 887272 ∧
    -887272 ≤ searched.s 2 / searched.s 3 ∧ searched.s 2 / searched.s 3 + 1 ≤ 887272 ∧
    searched.bmRead (wordIndex (searched.s 2 / searched.s 3 / 256)) =
      ((searched.setReg 9 7).bmWrite 5 3).bmRead (wordIndex (searched.s 2 / searched.s 3 / 256)) ∧
    searched.bmRead (wordIndex ((searched.s 2 / searched.s 3 + 1) / 256)) =
      ((searched.setReg 9 7).bmWrite 5 3).bmRead (wordIndex ((searched.s 2 / searched.s 3 + 1) / 256)) := by
  decide
theorem witness_BmldLoadsTheWord :
    (st [(1, -32769)]).s 1 < -32768 ∧ 32767 < (st [(1, 32768)]).s 1 ∧
    (0x8000 : WordIndex).toInt = (st [(1, -32768)]).s 1 ∧ (0x7FFF : WordIndex).toInt = (st [(1, 32767)]).s 1 := by
  decide
theorem witness_BmstStoresTheWord :
    (st [(1, 32768)]).bm.wf = true ∧ 32767 < (st [(1, 32768)]).s 1 ∧
    (st [(1, 32767)]).bm.wf = true ∧ (0x7FFF : WordIndex).toInt = (st [(1, 32767)]).s 1 := by decide
theorem witness_StoreIsSeenByLoad :
    (st [(1, -32768), (2, 4)]).bm.wf = true ∧ -32768 ≤ (st [(1, -32768), (2, 4)]).s 1 ∧
    (st [(1, -32768), (2, 4)]).s 1 ≤ 32767 := by decide
theorem witness_FlipIsSeenBySearch :
    (ticked (-240) 60).bm.wf = true ∧ (0 : Reg) ≠ 1 ∧ 1 ≤ (ticked (-240) 60).s 3 ∧
    (ticked (-240) 60).s 3 ≤ 887272 ∧ (ticked (-240) 60).s 2 % (ticked (-240) 60).s 3 = 0 ∧
    -887272 ≤ (ticked (-240) 60).s 2 / (ticked (-240) 60).s 3 ∧
    (ticked (-240) 60).s 2 / (ticked (-240) 60).s 3 ≤ 887272 ∧
    ((ticked (-240) 60).bmRead (wordIndex ((ticked (-240) 60).s 2 / (ticked (-240) 60).s 3 / 256))).getLsbD
      ((ticked (-240) 60).s 2 / (ticked (-240) 60).s 3 % 256).toNat = false := by decide

end Sys2Proof.Tests
end

namespace Sys2Proof.Machine

/-! ## Every step answers a next state (spec/70_reset_and_hazards.md R123, R124) -/

/-- Every arm of `exec` ends in `endCommand`, so no command stops the unit and none is refused (R103). -/
theorem exec_next (i : Instr) (s : State) : ∃ t, exec i s = .next t := by
  cases i <;>
    simp only [exec, execLdc, execAddw, execSubw, execMulw, execMulhw, execMuldivF, execMuldivC, execDivru, execMsb,
      execLsb, execT2p, execP2t, execBmpos, execBmflip, execBmnextGt, execBmnextLe, execBmld, execBmst, execBmclr] <;>
    exact endCommand_next _ s _

theorem deliverCommand_next (s : State) (c : HostWord) : ∃ t, deliverCommand s c = .next t := by
  obtain ⟨-, h⟩ | ⟨-, -, h⟩ | ⟨-, i, -, h⟩ := deliverCommand_cases s c
  · exact ⟨_, h⟩
  · exact ⟨_, h⟩
  · rw [h]
    exact exec_next i s

theorem transact_next (s : State) (a : Transaction) : ∃ t, transact s a = .next t := by
  cases a with
  | read w off =>
    obtain ⟨_, h⟩ := transact_read s w off
    exact ⟨_, h⟩
  | write w off d =>
    obtain ⟨_, _, h⟩ | ⟨-, -, h⟩ | ⟨-, -, h⟩ | h := transact_write_cases s w off d
    · exact ⟨_, h⟩
    · rw [h]
      exact deliverCommand_next _ d
    · exact ⟨_, h⟩
    · exact ⟨_, h⟩

theorem step_next (s : State) : ∃ t, step s = .next t := by
  cases h : s.pending with
  | nil => exact ⟨s, step_idle h⟩
  | cons a rest =>
    rw [step_transact h]
    exact transact_next _ a

/-- Settles O21: every transaction is answered with a next state, and the idle step is `step_idle`. -/
theorem stepAlwaysAnswers : Obligations.StepAlwaysAnswers := by
  unfold Obligations.StepAlwaysAnswers
  exact fun s => ⟨step_next s, step_idle⟩

end Sys2Proof.Machine

namespace Sys2Proof

/-! ## A decoded word is the encoding of its command (spec/30_encoding.md R46, R49) -/

/-- A selector that names a ROM entry is that entry's selector (R74). -/
theorem romSelector_of_romEntryOf {k : BitVec 8} {e : RomEntry} (h : romEntryOf k = some e) : romSelector e = k := by
  unfold romEntryOf at h
  split_ifs at h <;> (cases h; exact ‹k = _›.symm)

/-- The decoder answers what a row that holds builds, if it is a command. -/
theorem mem_of_firstTest_ok : ∀ {tests : List (Bool × Option Instr)} {i : Instr}, firstTest tests = .ok i →
    (true, some i) ∈ tests ∧ i.wellFormed = true
  | (true, some j) :: rest, i, h => by
    simp only [firstTest] at h
    split_ifs at h with hw
    cases h
    exact ⟨List.mem_cons_self, hw⟩
  | (false, _) :: rest, i, h => by
    obtain ⟨hm, hw⟩ := mem_of_firstTest_ok (tests := rest) h
    exact ⟨List.mem_cons_of_mem _ hm, hw⟩

/-- What a row that holds fixes of the fields. -/
theorem rowTest_eq_true {op : BitVec 8} {a1 a2 a3 a4 : Bool} {fn : Option (BitVec 8)} {f : Fields} :
    rowTest op a1 a2 a3 a4 fn f = true ↔
      f.op = op ∧ (a1 = true → f.f1 = 0) ∧ (a2 = true → f.f2 = 0) ∧ (a3 = true → f.f3 = 0) ∧ (a4 = true → f.f4 = 0) ∧
        ∀ v ∈ fn, f.fn = v := by
  have hr : ∀ (a : Bool) (r : Reg), regFieldTest a r = true ↔ (a = true → r = 0) := by
    intro a r
    cases a <;> simp [regFieldTest]
  have hf : fnTest fn f.fn = true ↔ ∀ v ∈ fn, f.fn = v := by
    cases fn <;> simp [fnTest]
  simp only [rowTest, Bool.and_eq_true, decide_eq_true_eq, hr, hf, and_assoc]

/-- A row that holds builds the command whose fields are those of the word. -/
theorem fieldsOfInstr_of_mem_tableTests {f : Fields} {i : Instr} (h : (true, some i) ∈ tableTests f) :
    fieldsOfInstr i = f := by
  obtain ⟨op, f1, f2, f3, f4, fn⟩ := f
  simp only [tableTests, List.mem_cons, List.not_mem_nil, or_false, Prod.mk.injEq, @eq_comm _ true, rowTest_eq_true,
    @eq_comm _ (some i), Option.map_eq_some_iff, Option.some.injEq] at h
  rcases h with ⟨hf, e, he, rfl⟩ | h
  · simp [fieldsOfInstr, romSelector_of_romEntryOf he, hf]
  · rcases h with ⟨hf, rfl⟩ | ⟨hf, rfl⟩ | ⟨hf, rfl⟩ | ⟨hf, rfl⟩ | ⟨hf, rfl⟩ | ⟨hf, rfl⟩ | ⟨hf, rfl⟩ | ⟨hf, rfl⟩ |
      ⟨hf, rfl⟩ | ⟨hf, rfl⟩ | ⟨hf, rfl⟩ | ⟨hf, rfl⟩ | ⟨hf, rfl⟩ | ⟨hf, rfl⟩ | ⟨hf, rfl⟩ | ⟨hf, rfl⟩ | ⟨hf, rfl⟩ |
      ⟨hf, rfl⟩ <;>
    simp [fieldsOfInstr, hf]

/-- A word that decodes is the word of its command, which is well-formed. -/
theorem encode_of_decode {c : HostWord} {i : Instr} (h : decode c = .ok i) : encode i = c ∧ i.wellFormed = true := by
  rw [decode_eq_firstTest] at h
  obtain ⟨hm, hw⟩ := mem_of_firstTest_ok h
  refine ⟨?_, hw⟩
  rw [encode, fieldsOfInstr_of_mem_tableTests hm, wordOfFields_fieldsOf]

end Sys2Proof

namespace Sys2Proof.Machine

/-! ## What a command can do (spec/10_state.md R14, spec/20_memory.md R38, spec/60_exceptions.md R101, R103) -/

/-- What a command does once its operands are read: it takes a fault, writes its one or two destinations, stores one
bitmap word, or clears the bitmap. -/
inductive Action where
  | fault (cause : Cause)
  | writeReg (rd : Reg) (v : Word)
  | writeRegs (rd rd2 : Reg) (v v2 : Word)
  | storeWord (w : WordIndex) (v : Word)
  | clearWords

/-- The state an action of the command `i` leads to. -/
def Action.applyTo (i : Instr) (s : State) : Action → State
  | .fault cause => s.raiseFault cause (encode i)
  | .writeReg rd v => s.setReg rd v
  | .writeRegs rd rd2 v v2 => (s.setReg rd v).setReg rd2 v2
  | .storeWord w v => s.bmWrite w v
  | .clearWords => s.bmClear

/-- The actions a command has: the causes listed for it if it is a command at all (R101), its named destinations (R14),
and the bitmap for the three commands that write it (R38). -/
def Action.AllowedFor (i : Instr) : Action → Prop
  | .fault cause => i.wellFormed = true → cause ∈ causesOf i
  | .writeReg rd _ => i.destinations = [rd]
  | .writeRegs rd rd2 _ _ => i.destinations = [rd, rd2]
  | .storeWord _ _ => i.writesBitmap = true
  | .clearWords => i.writesBitmap = true

/-- An allowed action leaves the host's side, the registers the command does not name, and the bitmap unless the command
writes it. -/
theorem Action.applyTo_frame {i : Instr} {a : Action} (ha : a.AllowedFor i) (s : State) :
    SameRegsExcept i.destinations s (a.applyTo i s) ∧ SameHostSide s (a.applyTo i s) ∧
      (i.writesBitmap = false → (a.applyTo i s).bm = s.bm) := by
  cases a with
  | fault cause => exact ⟨fun _ _ => rfl, ⟨rfl, rfl⟩, fun _ => rfl⟩
  | writeReg rd v =>
    obtain ⟨hregs, -, -, hhost⟩ := changesOnlyRegs_setReg s rd v
    exact ⟨by rwa [show i.destinations = [rd] from ha], hhost, fun _ => rfl⟩
  | writeRegs rd rd2 v v2 =>
    obtain ⟨hregs, -, -, hhost⟩ := changesOnlyRegs_setReg₂ s rd rd2 v v2
    exact ⟨by rwa [show i.destinations = [rd, rd2] from ha], hhost, fun _ => rfl⟩
  | storeWord w v => exact ⟨fun _ _ => rfl, ⟨rfl, rfl⟩, fun h => by simp [Action.AllowedFor, h] at ha⟩
  | clearWords => exact ⟨fun _ _ => rfl, ⟨rfl, rfl⟩, fun h => by simp [Action.AllowedFor, h] at ha⟩

theorem Action.applyTo_canonical (i : Instr) (a : Action) {s : State} (hs : BitmapCanonical s) :
    BitmapCanonical (a.applyTo i s) := by
  cases a with
  | fault cause => exact hs
  | writeReg rd v => exact hs
  | writeRegs rd rd2 v v2 => exact hs
  | storeWord w v => exact bmWrite_wf hs w v
  | clearWords => exact bmClear_wf s

/-- Only a fault touches the latch: an action either is one, or leaves the latch as it was. -/
theorem Action.applyTo_latch (i : Instr) (a : Action) (s : State) :
    (∃ cause, a = .fault cause) ∨ SameLatch s (a.applyTo i s) := by
  cases a with
  | fault cause => exact .inl ⟨cause, rfl⟩
  | writeReg rd v => exact .inr ⟨rfl, rfl, rfl⟩
  | writeRegs rd rd2 v v2 => exact .inr ⟨rfl, rfl, rfl⟩
  | storeWord w v => exact .inr ⟨rfl, rfl, rfl⟩
  | clearWords => exact .inr ⟨rfl, rfl, rfl⟩

/-- A command that writes the bitmap names no destination. -/
theorem destinations_of_writesBitmap {i : Instr} (h : i.writesBitmap = true) : i.destinations = [] := by
  revert h
  cases i <;> simp [Instr.writesBitmap, Instr.destinations]

/-- One allowed action from two states without a latched fault that hold the same bitmap: they fault alike, and else
agree on the destinations and the bitmap. -/
theorem Action.applyTo_agree {i : Instr} {a : Action} (ha : a.AllowedFor i) {s s' : State} (hf : s.fault = false)
    (hf' : s'.fault = false) (hbm : s.bm = s'.bm) :
    (a.applyTo i s).fault = (a.applyTo i s').fault ∧
      ((a.applyTo i s).fault = true → (a.applyTo i s).fcause = (a.applyTo i s').fcause) ∧
      ((a.applyTo i s).fault = false → ∀ r ∈ i.destinations, (a.applyTo i s).reg r = (a.applyTo i s').reg r) ∧
      (a.applyTo i s).bm = (a.applyTo i s').bm := by
  cases a with
  | fault cause => simp [Action.applyTo, hbm]
  | writeReg rd v =>
    have hd : i.destinations = [rd] := ha
    simp [Action.applyTo, hf, hf', hbm, hd]
  | writeRegs rd rd2 v v2 =>
    have hd : i.destinations = [rd, rd2] := ha
    simp [Action.applyTo, hf, hf', hbm, hd, setReg_reg]
  | storeWord w v => simp [Action.applyTo, hf, hf', hbm, destinations_of_writesBitmap ha]
  | clearWords => simp [Action.applyTo, hf, hf', destinations_of_writesBitmap ha]

/-! ## The causes the computations raise (R101) -/

theorem mulDiv_causes {a b d : Nat} {c : Cause} (h : mulDiv a b d = .error c) : c ∈ [.divZero, .unrepresentable] := by
  unfold mulDiv at h
  split_ifs at h <;> (cases h; decide)

theorem mulDivRoundingUp_causes {a b d : Nat} {c : Cause} (h : mulDivRoundingUp a b d = .error c) :
    c ∈ [.divZero, .unrepresentable] := by
  unfold mulDivRoundingUp at h
  split_ifs at h <;> (cases h; decide)

theorem divRoundingUp_causes {n y : Nat} {c : Cause} (h : divRoundingUp n y = .error c) : c ∈ [.divZero] := by
  unfold divRoundingUp at h
  split_ifs at h
  cases h
  decide

theorem scan_causes {find : Nat → Nat} {v : Nat} {c : Cause} (h : scan find v = .error c) : c ∈ [.zeroScan] := by
  unfold scan at h
  split_ifs at h
  cases h
  decide

theorem getSqrtRatioAtTick_causes {t : Int} {c : Cause} (h : getSqrtRatioAtTick t = .error c) : c ∈ [.tickRange] := by
  unfold getSqrtRatioAtTick at h
  split_ifs at h
  cases h
  decide

theorem getTickAtSqrtRatio_causes {p : Nat} {c : Cause} (h : getTickAtSqrtRatio p = .error c) :
    c ∈ [.priceRange] := by
  unfold getTickAtSqrtRatio at h
  split_ifs at h
  cases h
  decide

theorem position_causes {t : Int} {c : Cause} (h : position t = .error c) : c = .tickRange := by
  unfold position at h
  split_ifs at h
  cases h
  rfl

theorem nextTickDown_causes {s : State} {t sp : Int} {c : Cause} (h : nextTickDown s t sp = .error c) :
    c ∈ [.spacingRange, .tickRange] := by
  unfold nextTickDown at h
  split at h
  · cases h; decide
  · split at h
    next hp => cases h; simp [position_causes hp]
    next => cases h

theorem nextTickUp_causes {s : State} {t sp : Int} {c : Cause} (h : nextTickUp s t sp = .error c) :
    c ∈ [.spacingRange, .tickRange] := by
  unfold nextTickUp at h
  split at h
  · cases h; decide
  · split at h
    next hp => cases h; simp [position_causes hp]
    next => cases h

theorem flipTick_causes {s : State} {t sp : Int} {c : Cause} (h : flipTick s t sp = .error c) :
    c ∈ [.spacingRange, .tickMisaligned, .tickRange] := by
  unfold flipTick at h
  split at h
  · cases h; decide
  · split at h
    · cases h; decide
    · split at h
      next hp => cases h; simp [position_causes hp]
      next => cases h

/-! ## What the bitmap commands read of the state -/

theorem wordAt_congr {s s' : State} (h : s.bm = s'.bm) (w : Int) : s.wordAt w = s'.wordAt w := by
  simp only [State.wordAt, State.bmRead, h]

theorem nextTickDown_congr {s s' : State} (h : s.bm = s'.bm) (t sp : Int) :
    nextTickDown s t sp = nextTickDown s' t sp := by
  simp only [nextTickDown, wordAt_congr h]

theorem nextTickUp_congr {s s' : State} (h : s.bm = s'.bm) (t sp : Int) :
    nextTickUp s t sp = nextTickUp s' t sp := by
  simp only [nextTickUp, wordAt_congr h]

/-- From two states with one bitmap a flip raises the same cause or stores the same word. -/
theorem flipTick_congr {s s' : State} (h : s.bm = s'.bm) (t sp : Int) :
    (∃ c, flipTick s t sp = .error c ∧ flipTick s' t sp = .error c) ∨
      ∃ w v, flipTick s t sp = .ok (s.bmWrite w v) ∧ flipTick s' t sp = .ok (s'.bmWrite w v) := by
  unfold flipTick
  split
  · exact .inl ⟨_, rfl, rfl⟩
  · split
    · exact .inl ⟨_, rfl, rfl⟩
    · cases position (t / sp) with
      | error c => exact .inl ⟨c, rfl, rfl⟩
      | ok p => exact .inr ⟨_, _, rfl, by rw [wordAt_congr h]⟩

/-! ## Two runs of a command end in one action -/

/-- Two runs of the command `i` end in one allowed action, each on the state it began in. -/
def EndAlike (i : Instr) (s s' : State) (o o' : Host.Outcome State Fault Refusal) : Prop :=
  ∃ a : Action, a.AllowedFor i ∧ o = .next (a.applyTo i s) ∧ o' = .next (a.applyTo i s')

section
variable {i : Instr} {s s' : State}

theorem endAlike_error {c : Cause} (h : i.wellFormed = true → c ∈ causesOf i) :
    EndAlike i s s' (endCommand i s (.error c)) (endCommand i s' (.error c)) :=
  ⟨.fault c, h, rfl, rfl⟩

theorem endAlike_resultTo {rd : Reg} {r : Except Cause Int} (hd : i.destinations = [rd])
    (hc : ∀ c, r = .error c → c ∈ causesOf i) :
    EndAlike i s s' (endCommand i s (resultTo s rd r)) (endCommand i s' (resultTo s' rd r)) := by
  cases r with
  | ok n => exact ⟨.writeReg rd (enc n), hd, rfl, rfl⟩
  | error c => exact endAlike_error fun _ => hc c rfl

theorem endAlike_positionTo {rd rd2 : Reg} {r : Except Cause (Int × Nat)} (hd : i.destinations = [rd, rd2])
    (hc : ∀ c, r = .error c → c ∈ causesOf i) :
    EndAlike i s s' (endCommand i s (positionTo s rd rd2 r)) (endCommand i s' (positionTo s' rd rd2 r)) := by
  cases r with
  | ok p => exact ⟨.writeRegs rd rd2 (enc p.1) (enc p.2), hd, rfl, rfl⟩
  | error c => exact endAlike_error fun _ => hc c rfl

theorem endAlike_nextTickTo {rd rd2 : Reg} {r : Except Cause NextTick} (hd : i.destinations = [rd, rd2])
    (hc : ∀ c, r = .error c → c ∈ causesOf i) :
    EndAlike i s s' (endCommand i s (nextTickTo s rd rd2 r)) (endCommand i s' (nextTickTo s' rd rd2 r)) := by
  cases r with
  | ok n => exact ⟨.writeRegs rd rd2 (enc n.next) (encBool n.init), hd, rfl, rfl⟩
  | error c => exact endAlike_error fun _ => hc c rfl

/-- The guard of a two-destination command refuses alike, and only terms that are no command (R51). -/
theorem endAlike_requireDistinct {rd rd2 : Reg} {e e' : Except Cause State} (hw : i.wellFormed = (rd != rd2))
    (h : EndAlike i s s' (endCommand i s e) (endCommand i s' e')) :
    EndAlike i s s' (endCommand i s (requireDistinct rd rd2 e)) (endCommand i s' (requireDistinct rd rd2 e')) := by
  by_cases hd : rd = rd2
  · subst hd
    simp only [requireDistinct_self]
    exact endAlike_error fun h => by simp [hw] at h
  · simpa only [requireDistinct_ne hd] using h

theorem endAlike_flipTick {t sp : Int} (hbm : s.bm = s'.bm) (hw : i.writesBitmap = true)
    (hc : ∀ c, flipTick s t sp = .error c → c ∈ causesOf i) :
    EndAlike i s s' (endCommand i s (flipTick s t sp)) (endCommand i s' (flipTick s' t sp)) := by
  obtain ⟨c, h, h'⟩ | ⟨w, v, h, h'⟩ := flipTick_congr hbm t sp
  · rw [h, h']
    exact endAlike_error fun _ => hc c h
  · rw [h, h']
    exact ⟨.storeWord w v, hw, rfl, rfl⟩

/-- Two states that agree on the sources a command names and on the bitmap take one action of it (R14). -/
theorem exec_endAlike (hreg : ∀ r ∈ i.sources, s.reg r = s'.reg r) (hbm : s.bm = s'.bm) :
    EndAlike i s s' (exec i s) (exec i s') := by
  have hu : ∀ r ∈ i.sources, s.u r = s'.u r := fun r hr => congrArg BitVec.toNat (hreg r hr)
  have hs : ∀ r ∈ i.sources, s.s r = s'.s r := fun r hr => congrArg BitVec.toInt (hreg r hr)
  cases i <;> simp only [Instr.sources, List.forall_mem_cons, List.not_mem_nil, false_implies,
    implies_true, and_true] at hreg hu hs
  case ldc rd k => exact ⟨.writeReg rd (enc (romValue k)), rfl, rfl, rfl⟩
  case addw | subw | mulw | mulhw =>
    simp only [exec, execAddw, execSubw, execMulw, execMulhw, hu]
    exact endAlike_resultTo rfl (by simp)
  case muldivF =>
    simp only [exec, execMuldivF, hu]
    exact endAlike_resultTo rfl fun _ => mulDiv_causes
  case muldivC =>
    simp only [exec, execMuldivC, hu]
    exact endAlike_resultTo rfl fun _ => mulDivRoundingUp_causes
  case divru =>
    simp only [exec, execDivru, hu]
    exact endAlike_resultTo rfl fun _ => divRoundingUp_causes
  case msb | lsb =>
    simp only [exec, execMsb, execLsb, hu]
    exact endAlike_resultTo rfl fun _ => scan_causes
  case t2p =>
    simp only [exec, execT2p, hs]
    exact endAlike_resultTo rfl fun _ => getSqrtRatioAtTick_causes
  case p2t =>
    simp only [exec, execP2t, hu]
    exact endAlike_resultTo rfl fun _ => getTickAtSqrtRatio_causes
  case bmpos =>
    simp only [exec, execBmpos, hs]
    exact endAlike_requireDistinct rfl (endAlike_positionTo rfl fun _ h => by simp [causesOf, position_causes h])
  case bmflip =>
    simp only [exec, execBmflip, hs]
    exact endAlike_flipTick hbm rfl fun _ => flipTick_causes
  case bmnextGt =>
    simp only [exec, execBmnextGt, hs, nextTickUp_congr hbm]
    exact endAlike_requireDistinct rfl (endAlike_nextTickTo rfl fun _ => nextTickUp_causes)
  case bmnextLe =>
    simp only [exec, execBmnextLe, hs, nextTickDown_congr hbm]
    exact endAlike_requireDistinct rfl (endAlike_nextTickTo rfl fun _ => nextTickDown_causes)
  case bmld =>
    simp only [exec, execBmld, hs, wordAt_congr hbm]
    split
    · exact endAlike_error fun _ => List.mem_singleton_self _
    · exact ⟨.writeReg _ _, rfl, rfl, rfl⟩
  case bmst =>
    simp only [exec, execBmst, hs, hreg]
    split
    · exact endAlike_error fun _ => List.mem_singleton_self _
    · exact ⟨.storeWord _ _, rfl, rfl, rfl⟩
  case bmclr => exact ⟨.clearWords, rfl, rfl, rfl⟩

/-- A command that answers a next state has taken an action it is allowed. -/
theorem exec_action {t : State} (h : exec i s = .next t) : ∃ a : Action, a.AllowedFor i ∧ t = a.applyTo i s := by
  obtain ⟨a, ha, he, -⟩ := exec_endAlike (i := i) (s := s) (fun _ _ => rfl) rfl
  rw [h, Host.Outcome.next.injEq] at he
  exact ⟨a, ha, he⟩

end

/-- Settles O26: a command takes an allowed action, and no allowed action writes more. -/
theorem commandsWriteOnlyWhatTheyName : Obligations.CommandsWriteOnlyWhatTheyName := by
  unfold Obligations.CommandsWriteOnlyWhatTheyName
  intro i s t h
  obtain ⟨a, ha, rfl⟩ := exec_action h
  exact Action.applyTo_frame ha s

/-- Settles O27: two such states take one action, which leaves the same in both. -/
theorem commandsReadOnlyWhatTheyName : Obligations.CommandsReadOnlyWhatTheyName := by
  unfold Obligations.CommandsReadOnlyWhatTheyName
  intro i s s' t t' hf hf' hreg hbm h h'
  obtain ⟨a, ha, he, he'⟩ := exec_endAlike hreg hbm
  rw [h, Host.Outcome.next.injEq] at he
  rw [h', Host.Outcome.next.injEq] at he'
  rw [he, he']
  exact Action.applyTo_agree ha hf hf' hbm

/-! ## What a step can do to the bitmap and the latch (spec/10_state.md R19, spec/60_exceptions.md R106, R108) -/

/-- The ways a step ends, as far as the bitmap and the latch go. -/
inductive StepCase (s t : State) : Prop where
  /-- Nothing of the two changes: no transaction, a read, a limb write, a refused or a discarded write. -/
  | keeps (hbm : t.bm = s.bm) (hlatch : SameLatch s t)
  /-- A CTRL write with bit 0 set clears the latch (R108). -/
  | clears (d : HostWord) (rest : List Transaction) (hp : s.pending = .write .bits32 0x210 d :: rest)
      (hd : d.getLsbD 0 = true) (hbm : t.bm = s.bm) (hf : t.fault = false) (hcause : t.fcause = .noFault)
      (hcmd : t.fcmd = 0)
  /-- A CMD write of a word that is no command takes ILLEGAL_CMD (R53). -/
  | illegal (c : HostWord) (rest : List Transaction) (e : Rejection) (hp : s.pending = .write .bits32 0x200 c :: rest)
      (hs : s.fault = false) (hdec : decode c = .error e) (hbm : t.bm = s.bm) (hf : t.fault = true)
      (hcause : t.fcause = .illegalCmd) (hcmd : t.fcmd = c)
  /-- A CMD write of a command executes it (R50). -/
  | command (c : HostWord) (rest : List Transaction) (i : Instr) (hp : s.pending = .write .bits32 0x200 c :: rest)
      (hs : s.fault = false) (hdec : decode c = .ok i)
      (hexec : exec i { s with pending := rest, response := some .ok } = .next t)

theorem writeCtrl_set {d : HostWord} (h : d.getLsbD 0 = true) (s : State) : writeCtrl s d = s.clearFault := by
  rw [writeCtrl, if_pos h]

theorem writeCtrl_unset {d : HostWord} (h : d.getLsbD 0 = false) (s : State) : writeCtrl s d = s := by
  rw [writeCtrl, h]
  rfl

theorem stepCase_of_step {s t : State} (h : step s = .next t) : StepCase s t := by
  cases hp : s.pending with
  | nil =>
    rw [step_idle hp] at h
    cases h
    exact .keeps rfl ⟨rfl, rfl, rfl⟩
  | cons a rest =>
    rw [step_transact hp] at h
    cases a with
    | read w off =>
      obtain ⟨r, hr⟩ := transact_read { s with pending := rest } w off
      rw [hr] at h
      cases h
      exact .keeps rfl ⟨rfl, rfl, rfl⟩
    | write w off d =>
      obtain ⟨i, j, hw⟩ | ⟨rfl, rfl, hw⟩ | ⟨rfl, rfl, hw⟩ | hw :=
        transact_write_cases { s with pending := rest } w off d <;> rw [hw] at h
      · cases h
        exact .keeps rfl ⟨rfl, rfl, rfl⟩
      · obtain ⟨-, hc⟩ | ⟨hs, ⟨e, he⟩, hc⟩ | ⟨hs, i, hi, hc⟩ :=
          deliverCommand_cases (({ s with pending := rest } : State).answer .ok) d <;> rw [hc] at h
        · cases h
          exact .keeps rfl ⟨rfl, rfl, rfl⟩
        · cases h
          exact .illegal d rest e hp hs he rfl rfl rfl rfl
        · exact .command d rest i hp hs hi h
      · cases h
        cases hd : d.getLsbD 0 with
        | true =>
          rw [writeCtrl_set hd]
          exact .clears d rest hp hd rfl rfl rfl rfl
        | false =>
          rw [writeCtrl_unset hd]
          exact .keeps rfl ⟨rfl, rfl, rfl⟩
      · cases h
        exact .keeps rfl ⟨rfl, rfl, rfl⟩

/-! ## The latch and the bitmap over every step -/

/-- Settles O22: only a command writes the bitmap, and every action of a command keeps the canonical form. -/
theorem bitmapStaysCanonical : Obligations.BitmapStaysCanonical := by
  unfold Obligations.BitmapStaysCanonical
  intro s t hs h
  cases stepCase_of_step h with
  | keeps hbm => rwa [BitmapCanonical, hbm]
  | clears _ _ _ _ hbm => rwa [BitmapCanonical, hbm]
  | illegal _ _ _ _ _ _ hbm => rwa [BitmapCanonical, hbm]
  | command _ _ i _ _ _ hexec =>
    obtain ⟨a, -, rfl⟩ := exec_action hexec
    exact Action.applyTo_canonical i a hs

/-- The consistency of the latch is about the latch alone. -/
theorem latchConsistent_of_sameLatch {s t : State} (h : SameLatch s t) (hs : LatchConsistent s) : LatchConsistent t := by
  obtain ⟨hf, hcause, hcmd⟩ := h
  rwa [LatchConsistent, hf, hcause, hcmd]

theorem latchConsistent_of_clear {t : State} (hf : t.fault = false) (hcause : t.fcause = .noFault)
    (hcmd : t.fcmd = 0) : LatchConsistent t :=
  ⟨fun _ => ⟨hcause, hcmd⟩, fun h => by simp [hf] at h⟩

/-- A command keeps the latch consistent: the word it records on a fault is its own encoding, which decodes to it. -/
theorem exec_latchConsistent {c : HostWord} {i : Instr} {s t : State} (hdec : decode c = .ok i)
    (hs : LatchConsistent s) (h : exec i s = .next t) : LatchConsistent t := by
  obtain ⟨hc, hw⟩ := encode_of_decode hdec
  obtain ⟨a, ha, rfl⟩ := exec_action h
  obtain ⟨cause, rfl⟩ | hl := a.applyTo_latch i s
  · refine ⟨fun hf => (by cases hf), fun _ => ?_⟩
    simpa [Action.applyTo, hc, hdec] using ha hw
  · exact latchConsistent_of_sameLatch hl hs

/-- Settles O23: fault entry records a word and a cause that fit, CTRL clears all three, nothing else touches them. -/
theorem latchStaysConsistent : Obligations.LatchStaysConsistent := by
  unfold Obligations.LatchStaysConsistent
  intro s t hs h
  cases stepCase_of_step h with
  | keeps _ hlatch => exact latchConsistent_of_sameLatch hlatch hs
  | clears _ _ _ _ _ hf hcause hcmd => exact latchConsistent_of_clear hf hcause hcmd
  | illegal c _ e _ _ hdec _ hf hcause hcmd =>
    refine ⟨fun h => by simp [hf] at h, fun _ => ?_⟩
    simpa [hcmd, hdec] using hcause
  | command c rest i _ _ hdec hexec =>
    have hs' : LatchConsistent { s with pending := rest, response := some .ok } := hs
    exact exec_latchConsistent hdec hs' hexec

/-- Settles O11: of the ways a step ends, only the two CMD writes leave FAULT set where it was clear. -/
theorem latchIsSetOnlyByCommands : Obligations.LatchIsSetOnlyByCommands := by
  unfold Obligations.LatchIsSetOnlyByCommands
  intro s t h hs ht
  cases stepCase_of_step h with
  | keeps _ hlatch => simp [hlatch.1, hs] at ht
  | clears _ _ _ _ _ hf => simp [hf] at ht
  | illegal c rest _ hp => exact ⟨c, rest, hp⟩
  | command c rest _ hp => exact ⟨c, rest, hp⟩

/-- Settles O12: with FAULT set no command is executed or refused, so a step clears the latch or keeps it. -/
theorem latchIsClearedOnlyByCtrl : Obligations.LatchIsClearedOnlyByCtrl := by
  unfold Obligations.LatchIsClearedOnlyByCtrl
  intro s t h hs
  cases stepCase_of_step h with
  | keeps _ hlatch =>
    obtain ⟨hf, hcause, hcmd⟩ := hlatch
    exact .inr ⟨hf.trans hs, hcause, hcmd⟩
  | clears d rest hp hd _ hf => exact .inl ⟨hf, d, rest, hp, hd⟩
  | illegal _ _ _ _ hs' => simp [hs] at hs'
  | command _ _ _ _ hs' => simp [hs] at hs'

/-! ## Single transactions -/

/-- Settles O6: the transaction is taken, the word delivered and decoded. -/
theorem stepExecutesDecodedCommand : Obligations.StepExecutesDecodedCommand := by
  unfold Obligations.StepExecutesDecodedCommand
  intro s c i rest hp hs hdec
  rw [step_transact hp, transact_cmd, deliverCommand, if_neg (by simp [hs]), hdec]
  rfl

/-- What a 32-bit write of a word to CTRL does. -/
theorem transact_ctrl (s : State) (d : HostWord) :
    transact s (.write .bits32 0x210 d) = .next ((writeCtrl s d).answer .ok) := by
  simp [transact, hostWrite]

/-- Settles O13: bit 0 of the datum is its remainder by 2, and is all that `writeCtrl` looks at. -/
theorem ctrlBitZeroClearsLatch : Obligations.CtrlBitZeroClearsLatch := by
  unfold Obligations.CtrlBitZeroClearsLatch
  intro s d rest hp
  rw [step_transact hp, transact_ctrl]
  constructor
  · intro hd
    rw [writeCtrl_set (by simp [BitVec.getLsbD, hd])]
    exact ⟨_, rfl, rfl, rfl, rfl, rfl, rfl, rfl, rfl⟩
  · intro hd
    rw [writeCtrl_unset (by simp [BitVec.getLsbD, hd])]
    exact ⟨_, rfl, ⟨rfl, rfl, rfl, rfl, rfl⟩, rfl, rfl⟩

/-- A 32-bit read at an offset that names a register is answered with what that register reads as, without effect. -/
theorem step_read_named {s : State} {off : Offset} {rest : List Transaction} {r : HostReg}
    (hp : s.pending = .read .bits32 off :: rest) (hr : hostRegAt off = some r) :
    ∃ t, step s = .next t ∧ AnsweredWithoutEffect s t (hostRead s r) rest := by
  refine ⟨({ s with pending := rest } : State).answer (hostRead s r), ?_, ⟨rfl, rfl, rfl, rfl, rfl⟩, rfl, rfl⟩
  rw [step_transact hp]
  simp only [transact, if_true, hr]
  cases r <;> rfl

theorem statusWord_toNat (s : State) : (statusWord s).toNat = if s.fault then 1 else 0 := by
  unfold statusWord
  cases s.fault <;> rfl

theorem fcauseWord_toNat (s : State) : (fcauseWord s).toNat = (causeCode s.fcause).toNat := by
  exact (append_toNat _ _).trans (Nat.zero_add _)

/-- Settles O16: the four offsets name the four registers, and a read answers what each reads as. -/
theorem controlRegisterReads : Obligations.ControlRegisterReads := by
  unfold Obligations.ControlRegisterReads
  intro s off rest hp
  refine ⟨?_, ?_, ?_, ?_⟩
  · rintro rfl
    obtain ⟨t, ht, ha⟩ := step_read_named hp hostRegAt_status
    exact ⟨t, statusWord s, ht, ha, statusWord_toNat s⟩
  · rintro rfl
    obtain ⟨t, ht, ha⟩ := step_read_named hp hostRegAt_fcause
    refine ⟨t, fcauseWord s, ht, ha, ?_⟩
    rw [fcauseWord_toNat]
    cases s.fcause <;> rfl
  · rintro rfl
    exact step_read_named hp hostRegAt_fcmd
  · rintro rfl
    exact step_read_named hp hostRegAt_ident

/-! ## Reset (spec/10_state.md R28, spec/70_reset_and_hazards.md R116, R125) -/

/-- Reset clears the latch, so it is consistent whatever the registers and the bitmap hold. -/
theorem resetWith_latchConsistent (x : Vector Word 16) (bm : Memory) : LatchConsistent (State.resetWith x bm) :=
  latchConsistent_of_clear rfl rfl rfl

/-- Settles O24: the bitmap is the canonical one given, or lists nothing, and the latch is clear. -/
theorem resetMeetsInvariants : Obligations.ResetMeetsInvariants := by
  unfold Obligations.ResetMeetsInvariants
  exact ⟨fun x bm h => ⟨h, resetWith_latchConsistent x bm⟩, reset_wf, resetWith_latchConsistent _ _⟩

/-- Settles O25: the fields of `State.resetWith`, read off. -/
theorem resetClearsOnlyTheLatch : Obligations.ResetClearsOnlyTheLatch := by
  unfold Obligations.ResetClearsOnlyTheLatch
  exact ⟨fun _ _ => ⟨rfl, rfl, rfl, rfl, rfl⟩, _, _, rfl⟩

end Sys2Proof.Machine

namespace Sys2Proof.Machine

/-! ## The host's window (spec/20_memory.md R30 to R37) -/

/-- A transaction that leaves the unit as it was, but for the answer, is answered without effect by the step. -/
theorem step_answered {s : State} {a : Transaction} {rest : List Transaction} {r : Response}
    (hp : s.pending = a :: rest)
    (ha : transact { s with pending := rest } a = .next (({ s with pending := rest } : State).answer r)) :
    ∃ t, step s = .next t ∧ AnsweredWithoutEffect s t r rest :=
  ⟨_, (step_transact hp).trans ha, ⟨rfl, rfl, rfl, rfl, rfl⟩, rfl, rfl⟩

/-- Settles O19: a read changes the answer alone, whichever it is. -/
theorem hostReadsChangeNothing : Obligations.HostReadsChangeNothing := by
  unfold Obligations.HostReadsChangeNothing
  intro s w off rest hp
  obtain ⟨r, hr⟩ := transact_read { s with pending := rest } w off
  obtain ⟨t, ht, ha⟩ := step_answered hp hr
  exact ⟨t, r, ht, ha⟩

/-! ## Refused accesses (R33, R34) -/

/-- A read is refused unless it is of 32 bits, at an offset that names a register, and that register can be read. -/
theorem transact_read_err {s : State} {w : Width} {off : Offset}
    (h : w = .bits32 → ∀ r, hostRegAt off = some r → hostRead s r = .err) :
    transact s (.read w off) = .next (s.answer .err) := by
  by_cases hw : w = .bits32
  · cases hr : hostRegAt off with
    | none => simp [transact, hr]
    | some r => simp [transact, hw, hr, h hw r hr]
  · simp [transact, hw]

/-- A write is refused unless it is of 32 bits, at an offset that names a register, and that register takes it. -/
theorem transact_write_err {s : State} {w : Width} {off : Offset} {d : HostWord}
    (h : w = .bits32 → ∀ r, hostRegAt off = some r → hostWrite s d r = .next (s.answer .err)) :
    transact s (.write w off d) = .next (s.answer .err) := by
  by_cases hw : w = .bits32
  · cases hr : hostRegAt off with
    | none => simp [transact, hr]
    | some r => simp [transact, hw, hr, h hw r hr]
  · simp [transact, hw]

/-- No 32-bit access finds a register when the width or the alignment is wrong (R33). -/
theorem hostRegAt_ne_some_of_wrong {w : Width} {off : Offset} (h : w ≠ .bits32 ∨ off.toNat % 4 ≠ 0)
    (hw : w = .bits32) (r : HostReg) : hostRegAt off ≠ some r := by
  rw [hostRegAt_misaligned (h.resolve_left (not_not_intro hw))]
  exact nofun

/-- Settles O17: no register answers such an access, so it is refused. -/
theorem wrongWidthOrAlignmentIsErr : Obligations.WrongWidthOrAlignmentIsErr := by
  unfold Obligations.WrongWidthOrAlignmentIsErr
  intro s a rest hp h
  refine step_answered hp ?_
  cases a with
  | read w off => exact transact_read_err fun hw r hr => absurd hr (hostRegAt_ne_some_of_wrong h hw r)
  | write w off d => exact transact_write_err fun hw r hr => absurd hr (hostRegAt_ne_some_of_wrong h hw r)

/-- CMD and CTRL are write-only, and a reserved offset names no register (R31, R34). -/
theorem hostRead_forbidden {s : State} {off : Offset} {r : HostReg}
    (h : off = 0x200 ∨ off = 0x210 ∨ 0x218 ≤ off.toNat) (hr : hostRegAt off = some r) : hostRead s r = .err := by
  obtain rfl | rfl | h := h
  · cases hostRegAt_cmd.symm.trans hr; rfl
  · cases hostRegAt_ctrl.symm.trans hr; rfl
  · cases (hostRegAt_reserved h).symm.trans hr

/-- STATUS, FCAUSE, FCMD and ID are read-only, and a reserved offset names no register (R31, R34). -/
theorem hostWrite_forbidden {s : State} {off : Offset} {d : HostWord} {r : HostReg}
    (h : off = 0x204 ∨ off = 0x208 ∨ off = 0x20C ∨ off = 0x214 ∨ 0x218 ≤ off.toNat)
    (hr : hostRegAt off = some r) : hostWrite s d r = .next (s.answer .err) := by
  obtain rfl | rfl | rfl | rfl | h := h
  · cases hostRegAt_status.symm.trans hr; rfl
  · cases hostRegAt_fcause.symm.trans hr; rfl
  · cases hostRegAt_fcmd.symm.trans hr; rfl
  · cases hostRegAt_ident.symm.trans hr; rfl
  · cases (hostRegAt_reserved h).symm.trans hr

/-- Settles O18: at such an offset stands no register, or one that answers ERR. -/
theorem forbiddenAccessIsErr : Obligations.ForbiddenAccessIsErr := by
  unfold Obligations.ForbiddenAccessIsErr
  intro s a rest hp h
  refine step_answered hp ?_
  cases a with
  | read w off => exact transact_read_err fun _ _ => hostRead_forbidden h
  | write w off d => exact transact_write_err fun _ _ => hostWrite_forbidden h

/-! ## The limbs of the registers (R31, R32) -/

/-- A 32-bit read at a limb's offset answers that limb. -/
theorem transact_read_limb (s : State) (i : Reg) (j : Fin 8) :
    transact s (.read .bits32 (limbOffset i j)) = .next (s.answer (.okData (limb (s.reg i) j))) := by
  simp [transact, hostRegAt_limbOffset, hostRead]

/-- A 32-bit write at a limb's offset replaces that limb. -/
theorem transact_write_limb (s : State) (i : Reg) (j : Fin 8) (d : HostWord) :
    transact s (.write .bits32 (limbOffset i j) d) = .next ((s.setReg i (setLimb (s.reg i) j d)).answer .ok) := by
  simp [transact, hostRegAt_limbOffset, hostWrite]

/-- The lowest `n` digits of `v` to the base `b`, each at its weight, make up `v % b ^ n`. -/
theorem sum_digits_eq_mod (b v n : Nat) : ∑ j : Fin n, v / b ^ j.val % b * b ^ j.val = v % b ^ n := by
  induction n with
  | zero => simp [Nat.mod_one]
  | succ n ih =>
    rw [Fin.sum_univ_castSucc, Nat.mod_pow_succ, ← ih, Nat.mul_comm (b ^ n)]
    rfl

/-- The eight limbs of a word, limb 0 the least significant, make up its unsigned value (R32). -/
theorem sum_limbs (v : Word) : ∑ j : Fin 8, (limb v j).toNat * 2 ^ (32 * j.val) = v.toNat := by
  have h := sum_digits_eq_mod (2 ^ 32) v.toNat 8
  rw [← pow_mul, Nat.mod_eq_of_lt v.isLt] at h
  simpa only [limb_toNat, pow_mul] using h

/-- Settles O14: the eight reads answer the limbs of the register, which are its digits to the base 2^32. -/
theorem limbsSumToRegister : Obligations.LimbsSumToRegister := by
  unfold Obligations.LimbsSumToRegister
  intro s i rest
  refine ⟨limb (s.reg i), fun j => ?_, (sum_limbs _).symm⟩
  exact (step_transact rfl).trans (transact_read_limb { s with pending := rest } i j)

/-- Settles O15: the write replaces the limb, and of the registers it writes that one alone. -/
theorem limbWriteReplacesItsBits : Obligations.LimbWriteReplacesItsBits := by
  unfold Obligations.LimbWriteReplacesItsBits
  intro s i j d rest hp
  refine ⟨_, (step_transact hp).trans (transact_write_limb { s with pending := rest } i j d), ?bits, ?frame, rfl,
    ⟨rfl, rfl, rfl⟩, rfl, rfl⟩
  case bits =>
    intro b hb
    rw [answer_reg, setReg_reg_self]
    exact setLimb_getLsbD _ j d b hb
  case frame =>
    intro r hr
    exact setReg_reg_ne _ i r _ (by simpa using hr)

/-! ## The bus side (R30, R37) -/

/-- Every offset stands in the window, at its distance from BASE. -/
@[simp] theorem windowOffset_base_add (off : Offset) : windowOffset (Config.base + off.toNat) = some off := by
  have hlt : off.toNat < 1024 := off.isLt
  simp [windowOffset, hlt]

/-- An address below or above the 1024 bytes from BASE has no offset. -/
theorem windowOffset_outside {address : Nat} (h : address < Config.base ∨ Config.base + 0x3FF < address) :
    windowOffset address = none :=
  if_neg (by omega)

/-- Settles O20: BASE is 1024 pages, and an access joins the transactions exactly when its address has an offset. -/
theorem busWindowIsAtBase : Obligations.BusWindowIsAtBase := by
  unfold Obligations.BusWindowIsAtBase
  refine ⟨⟨Config.basePage, rfl⟩, fun s w d => ⟨fun off => ?inside, fun address h => ?outside⟩⟩
  case inside => constructor <;> simp [State.issue, transactionOf]
  case outside => constructor <;> simp [State.issue, transactionOf, windowOffset_outside h]

end Sys2Proof.Machine

namespace Sys2Proof

/-! ## The rows of the opcode table exclude each other (spec/30_encoding.md R49) -/

/-- A word that selects two rows carries the match of each under the mask of the other. -/
theorem pattern_and_mask_of_selects {p q : OpcodeRow} {c : HostWord} (hp : p.selects c = true)
    (hq : q.selects c = true) : p.pattern &&& q.mask = q.pattern &&& p.mask := by
  have hp : c &&& p.mask = p.pattern := beq_iff_eq.mp hp
  have hq : c &&& q.mask = q.pattern := beq_iff_eq.mp hq
  rw [← hp, ← hq, BitVec.and_assoc, BitVec.and_assoc, BitVec.and_comm p.mask]

/-- Any two rows ask for different values in the bits that both of them look at. -/
theorem opcodeTable_differ : opcodeTable.Pairwise fun p q => p.pattern &&& q.mask ≠ q.pattern &&& p.mask := by
  decide

/-- Settles O3: in the bits that two rows both look at, a word has only one value. -/
theorem opcodeRowsAreExclusive : Obligations.OpcodeRowsAreExclusive := by
  unfold Obligations.OpcodeRowsAreExclusive
  exact opcodeTable_differ.imp fun hne _ ⟨hp, hq⟩ => hne (pattern_and_mask_of_selects hp hq)

/-! ## Decoding and encoding are inverse to each other (spec/30_encoding.md R46, R49, R50) -/

/-- Of the tests on the fields of a word at most one holds. -/
theorem tableTests_exclusive (f : Fields) : (tableTests f).Pairwise fun a b => ¬ (a.1 = true ∧ b.1 = true) := by
  have h := opcodeTable_tests (wordOfFields f)
  rw [fieldsOf_wordOfFields] at h
  rw [← h, List.pairwise_map]
  exact opcodeRowsAreExclusive.imp fun hpq => hpq (wordOfFields f)

/-- Where at most one test holds, the first that holds is the one that holds. -/
theorem firstTest_of_mem {tests : List (Bool × Option Instr)} {i : Instr}
    (hex : tests.Pairwise fun a b => ¬ (a.1 = true ∧ b.1 = true)) (hm : (true, some i) ∈ tests)
    (hw : i.wellFormed = true) : firstTest tests = .ok i := by
  induction tests with
  | nil => cases hm
  | cons a rest ih =>
    obtain ⟨hhead, hrest⟩ := List.pairwise_cons.mp hex
    obtain rfl | htail := List.mem_cons.mp hm
    · simp [firstTest, hw]
    · obtain ⟨b, o⟩ := a
      cases b with
      | true => exact absurd ⟨rfl, rfl⟩ (hhead _ htail)
      | false => exact ih hrest htail

theorem romEntryOf_romSelector (e : RomEntry) : romEntryOf (romSelector e) = some e := by
  cases e <;> rfl

/-- The fields of a command pass a test of the table that builds this command. -/
theorem mem_tableTests_fieldsOfInstr (i : Instr) : (true, some i) ∈ tableTests (fieldsOfInstr i) := by
  cases i <;> simp [tableTests, fieldsOfInstr, rowTest, regFieldTest, fnTest, romEntryOf_romSelector]

/-- Settles O1: the word's fields pass the test of the command's own row, and of no other. -/
theorem decodeOfEncode : Obligations.DecodeOfEncode := by
  unfold Obligations.DecodeOfEncode
  intro i hw
  rw [decode_eq_firstTest, encode, fieldsOf_wordOfFields]
  exact firstTest_of_mem (tableTests_exclusive _) (mem_tableTests_fieldsOfInstr i) hw

/-- Settles O2: `encode_of_decode` for every word. -/
theorem encodeOfDecode : Obligations.EncodeOfDecode := by
  unfold Obligations.EncodeOfDecode
  exact fun _ _ => encode_of_decode

/-- A word decodes to a command exactly when it is the word of that command, and the command is well-formed. -/
theorem decode_eq_ok_iff {c : HostWord} {i : Instr} : decode c = .ok i ↔ encode i = c ∧ i.wellFormed = true := by
  refine ⟨encode_of_decode, ?_⟩
  rintro ⟨rfl, hw⟩
  exact decodeOfEncode i hw

/-- Settles O5: each of the eight words is the word of its command, which is well-formed. -/
theorem sampleWordsDecode : Obligations.SampleWordsDecode := by
  unfold Obligations.SampleWordsDecode
  simp only [decode_eq_ok_iff]
  decide

/-! ## The legal words (spec/30_encoding.md R47, R51, R53) -/

theorem romSelector_toNat_le (e : RomEntry) : (romSelector e).toNat ≤ 8 := by
  cases e <;> decide

/-- The fields of a well-formed command are legal. -/
theorem legalFields_fieldsOfInstr {i : Instr} (hw : i.wellFormed = true) : LegalFields (fieldsOfInstr i) := by
  revert hw
  cases i <;> simp [LegalFields, fieldsOfInstr, Instr.wellFormed, romSelector_toNat_le]

/-- A selector of at most 8 is that of a ROM entry (R48, R74). -/
theorem exists_romSelector {k : BitVec 8} (h : k.toNat ≤ 8) : ∃ e, romSelector e = k := by
  have hsome : ∀ k : BitVec 8, k.toNat ≤ 8 → (romEntryOf k).isSome = true := by decide
  obtain ⟨e, he⟩ := Option.isSome_iff_exists.mp (hsome k h)
  exact ⟨e, romSelector_of_romEntryOf he⟩

/-- A function byte of at most 1 is 0 or 1. -/
theorem fn_zero_or_one {k : BitVec 8} (h : k.toNat ≤ 1) : k = 0 ∨ k = 1 := by
  revert k
  decide

/-- Legal fields are the fields of a well-formed command. -/
theorem exists_fieldsOfInstr {f : Fields} (h : LegalFields f) :
    ∃ i : Instr, fieldsOfInstr i = f ∧ i.wellFormed = true := by
  obtain ⟨op, f1, f2, f3, f4, fn⟩ := f
  simp only [LegalFields, List.mem_cons, List.not_mem_nil, or_false] at h
  obtain ⟨rfl, rfl, rfl, rfl, hfn⟩ | ⟨hop, rfl, rfl⟩ | ⟨rfl, hfn⟩ | ⟨hop, rfl, rfl, rfl⟩ | ⟨rfl, hne, rfl, rfl⟩ |
    ⟨rfl, hne, hfn⟩ | ⟨hop, rfl, rfl, rfl⟩ | ⟨rfl, rfl, rfl, rfl, rfl, rfl⟩ := h
  · obtain ⟨e, rfl⟩ := exists_romSelector hfn
    exact ⟨.ldc f1 e, rfl, rfl⟩
  · obtain rfl | rfl | rfl | rfl | rfl := hop
    · exact ⟨.addw f1 f2 f3, rfl, rfl⟩
    · exact ⟨.subw f1 f2 f3, rfl, rfl⟩
    · exact ⟨.mulw f1 f2 f3, rfl, rfl⟩
    · exact ⟨.mulhw f1 f2 f3, rfl, rfl⟩
    · exact ⟨.divru f1 f2 f3, rfl, rfl⟩
  · obtain rfl | rfl := fn_zero_or_one hfn
    · exact ⟨.muldivF f1 f2 f3 f4, rfl, rfl⟩
    · exact ⟨.muldivC f1 f2 f3 f4, rfl, rfl⟩
  · obtain rfl | rfl | rfl | rfl | rfl := hop
    · exact ⟨.msb f1 f2, rfl, rfl⟩
    · exact ⟨.lsb f1 f2, rfl, rfl⟩
    · exact ⟨.t2p f1 f2, rfl, rfl⟩
    · exact ⟨.p2t f1 f2, rfl, rfl⟩
    · exact ⟨.bmld f1 f2, rfl, rfl⟩
  · exact ⟨.bmpos f1 f2 f3, rfl, bne_iff_ne.mpr hne⟩
  · obtain rfl | rfl := fn_zero_or_one hfn
    · exact ⟨.bmnextGt f1 f2 f3 f4, rfl, bne_iff_ne.mpr hne⟩
    · exact ⟨.bmnextLe f1 f2 f3 f4, rfl, bne_iff_ne.mpr hne⟩
  · obtain rfl | rfl := hop
    · exact ⟨.bmflip f2 f3, rfl, rfl⟩
    · exact ⟨.bmst f2 f3, rfl, rfl⟩
  · exact ⟨.bmclr, rfl, rfl⟩

/-- Settles O4: both sides say that the word is the word of a well-formed command. -/
theorem decodeAcceptsExactlyLegalWords : Obligations.DecodeAcceptsExactlyLegalWords := by
  unfold Obligations.DecodeAcceptsExactlyLegalWords
  intro c
  constructor
  · rintro ⟨i, h⟩
    obtain ⟨rfl, hw⟩ := encode_of_decode h
    rw [encode, fieldsOf_wordOfFields]
    exact legalFields_fieldsOfInstr hw
  · intro h
    obtain ⟨i, hi, hw⟩ := exists_fieldsOfInstr h
    exact ⟨i, decode_eq_ok_iff.mpr ⟨by rw [encode, hi, wordOfFields_fieldsOf], hw⟩⟩

end Sys2Proof

namespace Sys2Proof.Machine

/-- Settles O7: such a word does not decode, so of the ways a CMD write ends only ILLEGAL_CMD is left. -/
theorem illegalWordFaults : Obligations.IllegalWordFaults := by
  unfold Obligations.IllegalWordFaults
  intro s c rest hp hs hc
  rw [step_transact hp, transact_cmd]
  obtain ⟨hf, -⟩ | ⟨-, -, h⟩ | ⟨-, i, hi, -⟩ := deliverCommand_cases (({ s with pending := rest } : State).answer .ok) c
  · simp [hs] at hf
  · exact ⟨_, h, rfl, rfl, rfl, rfl, rfl, rfl, rfl⟩
  · exact absurd ((decodeAcceptsExactlyLegalWords c).mp ⟨i, hi⟩) hc

end Sys2Proof.Machine

namespace Sys2Proof.Machine

/-! ## How a command with one computed result ends (spec/10_state.md R7, spec/60_exceptions.md R103) -/

theorem u_lt_modulus (s : State) (r : Reg) : s.u r < modulus := (s.reg r).isLt

section
variable {i : Instr} {s : State} {rd : Reg}

/-- A command whose computation yields an integer completes with it, reduced modulo 2^256, in its destination alone. -/
theorem completes_of_ok {n : Int} (h : exec i s = endCommand i s (resultTo s rd (.ok n))) :
    ∃ t, exec i s = .next t ∧ (t.u rd : Int) = n % 2 ^ 256 ∧ ChangesOnlyRegs [rd] s t := by
  refine ⟨s.setReg rd (enc n), h, ?_, changesOnlyRegs_setReg s rd _⟩
  rw [setReg_u_self, enc_toNat, Int.toNat_of_nonneg (Int.emod_nonneg n (by decide))]
  rfl

/-- A result that fits in 256 bits is kept exactly. -/
theorem completes_of_natCast {n : Nat} (h : exec i s = endCommand i s (resultTo s rd (.ok (n : Int))))
    (hn : n < modulus) : ∃ t, exec i s = .next t ∧ t.u rd = n ∧ ChangesOnlyRegs [rd] s t :=
  ⟨s.setReg rd (enc n), h, by rw [setReg_u_self, enc_natCast_toNat hn], changesOnlyRegs_setReg s rd _⟩

end

/-! ## The commands of the family as computations on unsigned values (spec/40_wideint.md R59 to R67) -/

section
variable (rd rs1 rs2 rs3 : Reg) (s : State)

theorem exec_addw : exec (.addw rd rs1 rs2) s =
    endCommand (.addw rd rs1 rs2) s (resultTo s rd (.ok ((s.u rs1 : Int) + s.u rs2))) := rfl

theorem exec_subw : exec (.subw rd rs1 rs2) s =
    endCommand (.subw rd rs1 rs2) s (resultTo s rd (.ok ((s.u rs1 : Int) - s.u rs2))) := rfl

theorem exec_mulw : exec (.mulw rd rs1 rs2) s =
    endCommand (.mulw rd rs1 rs2) s (resultTo s rd (.ok (s.u rs1 * s.u rs2 % modulus : Nat))) := rfl

theorem exec_mulhw : exec (.mulhw rd rs1 rs2) s =
    endCommand (.mulhw rd rs1 rs2) s (resultTo s rd (.ok (s.u rs1 * s.u rs2 / modulus : Nat))) := rfl

theorem exec_msb : exec (.msb rd rs1) s =
    endCommand (.msb rd rs1) s (resultTo s rd (scan highestBit (s.u rs1))) := rfl

theorem exec_lsb : exec (.lsb rd rs1) s =
    endCommand (.lsb rd rs1) s (resultTo s rd (scan lowestBit (s.u rs1))) := rfl

/-! ## Sum, difference and product (R59 to R62) -/

/-- MULW completes with the low word of the product (R61). -/
theorem exec_mulw_completes : ∃ t, exec (.mulw rd rs1 rs2) s = .next t ∧
    t.u rd = s.u rs1 * s.u rs2 % 2 ^ 256 ∧ ChangesOnlyRegs [rd] s t :=
  completes_of_natCast (exec_mulw rd rs1 rs2 s) (Nat.mod_lt _ (by decide))

/-- MULHW completes with the high word of the product, which fits because both operands do (R62). -/
theorem exec_mulhw_completes : ∃ t, exec (.mulhw rd rs1 rs2) s = .next t ∧
    t.u rd = s.u rs1 * s.u rs2 / 2 ^ 256 ∧ ChangesOnlyRegs [rd] s t :=
  completes_of_natCast (exec_mulhw rd rs1 rs2 s)
    (Nat.div_lt_of_lt_mul (Nat.mul_lt_mul'' (u_lt_modulus s rs1) (u_lt_modulus s rs2)))

end

/-- Settles O30: the sum is encoded modulo 2^256, and reads back so. -/
theorem addwWraps : Obligations.AddwWraps := by
  unfold Obligations.AddwWraps
  intro rd rs1 rs2 s
  obtain ⟨t, ht, hu, hframe⟩ := completes_of_ok (exec_addw rd rs1 rs2 s)
  exact ⟨decodeOfEncode (.addw rd rs1 rs2) rfl, t, ht, by exact_mod_cast hu, hframe⟩

/-- Settles O31: the difference is encoded modulo 2^256, the floor remainder. -/
theorem subwWraps : Obligations.SubwWraps := by
  unfold Obligations.SubwWraps
  exact fun rd rs1 rs2 s =>
    ⟨decodeOfEncode (.subw rd rs1 rs2) rfl, completes_of_ok (exec_subw rd rs1 rs2 s)⟩

/-- Settles O32: `exec_mulw_completes`. -/
theorem mulwGivesLowWord : Obligations.MulwGivesLowWord := by
  unfold Obligations.MulwGivesLowWord
  exact fun rd rs1 rs2 s => ⟨decodeOfEncode (.mulw rd rs1 rs2) rfl, exec_mulw_completes rd rs1 rs2 s⟩

/-- Settles O33: `exec_mulhw_completes`. -/
theorem mulhwGivesHighWord : Obligations.MulhwGivesHighWord := by
  unfold Obligations.MulhwGivesHighWord
  exact fun rd rs1 rs2 s => ⟨decodeOfEncode (.mulhw rd rs1 rs2) rfl, exec_mulhw_completes rd rs1 rs2 s⟩

/-! ## The commands that divide (R63, R64, R65): one way to end for all three -/

/-- The end of a division by `d` whose exact result is `q`: DIV_ZERO first, then UNREPRESENTABLE if `q` does not fit. -/
def quotientOrFault (d q : Nat) : Except Cause Int :=
  if d = 0 then .error .divZero else if q ≥ modulus then .error .unrepresentable else .ok (q : Nat)

theorem quotientOrFault_zero (q : Nat) : quotientOrFault 0 q = .error .divZero := rfl

theorem quotientOrFault_error {d q : Nat} (hd : d ≠ 0) (hq : modulus ≤ q) :
    quotientOrFault d q = .error .unrepresentable := by
  rw [quotientOrFault, if_neg hd, if_pos hq]

theorem quotientOrFault_ok {d q : Nat} (hd : d ≠ 0) (hq : q < modulus) : quotientOrFault d q = .ok (q : Int) := by
  rw [quotientOrFault, if_neg hd, if_neg (Nat.not_le.mpr hq)]

/-- The ceiling of a division is its floor, and 1 more if there is a remainder. -/
theorem ceil_eq_floor_add {d : Nat} (hd : d ≠ 0) (n : Nat) :
    (n + d - 1) / d = n / d + if n % d ≠ 0 then 1 else 0 := by
  have hsplit : n + d - 1 = n % d + (d - 1) + d * (n / d) := by
    have := Nat.mod_add_div n d
    omega
  have hlt := Nat.mod_lt n (Nat.pos_of_ne_zero hd)
  rw [hsplit, Nat.add_mul_div_left _ _ (Nat.pos_of_ne_zero hd), Nat.add_comm]
  congr 1
  split
  · exact Nat.div_eq_of_lt_le (by omega) (by omega)
  · exact Nat.div_eq_of_lt (by omega)

/-- A floor rounded up stops fitting in 256 bits exactly where the floor is the greatest that fits (R64). -/
theorem modulus_le_add_one_iff (q : Nat) : modulus ≤ q + 1 ↔ modulus ≤ q ∨ q = modulus - 1 := by omega

theorem mulDiv_eq (a b d : Nat) : mulDiv a b d = quotientOrFault d (a * b / d) := rfl

/-- The rule's own steps, the increment tested for overflow, amount to the ceiling tested for overflow (R64). -/
theorem mulDivRoundingUp_eq (a b d : Nat) : mulDivRoundingUp a b d = quotientOrFault d ((a * b + d - 1) / d) := by
  by_cases hd : d = 0
  · subst hd
    rfl
  · rw [mulDivRoundingUp, ceil_eq_floor_add hd, quotientOrFault, if_neg hd, if_neg hd]
    by_cases hr : a * b % d = 0
    · simp [hr]
    · simp only [hr, ne_eq, not_false_iff, if_true, ge_iff_le, modulus_le_add_one_iff, ite_or]

/-- The ceiling of `n/y` is at most `n`, so it always fits (R65). -/
theorem ceil_le_dividend {y : Nat} (hy : y ≠ 0) (n : Nat) : (n + y - 1) / y ≤ n :=
  have hpos := Nat.pos_of_ne_zero hy
  (ceilDiv_le_iff_le_mul hpos).mpr (Nat.le_mul_of_pos_left n hpos)

theorem divRoundingUp_eq {n : Nat} (hn : n < modulus) (y : Nat) :
    divRoundingUp n y = quotientOrFault y ((n + y - 1) / y) := by
  by_cases hy : y = 0
  · subst hy
    rfl
  · rw [divRoundingUp, if_neg hy, quotientOrFault_ok hy ((ceil_le_dividend hy n).trans_lt hn)]

section
variable (rd rs1 rs2 rs3 : Reg) (s : State)

theorem exec_muldivF : exec (.muldivF rd rs1 rs2 rs3) s = endCommand (.muldivF rd rs1 rs2 rs3) s
    (resultTo s rd (quotientOrFault (s.u rs3) (s.u rs1 * s.u rs2 / s.u rs3))) := by
  rw [← mulDiv_eq]
  rfl

theorem exec_muldivC : exec (.muldivC rd rs1 rs2 rs3) s = endCommand (.muldivC rd rs1 rs2 rs3) s
    (resultTo s rd (quotientOrFault (s.u rs3) ((s.u rs1 * s.u rs2 + s.u rs3 - 1) / s.u rs3))) := by
  rw [← mulDivRoundingUp_eq]
  rfl

theorem exec_divru : exec (.divru rd rs1 rs2) s = endCommand (.divru rd rs1 rs2) s
    (resultTo s rd (quotientOrFault (s.u rs2) ((s.u rs1 + s.u rs2 - 1) / s.u rs2))) := by
  rw [← divRoundingUp_eq (u_lt_modulus s rs1)]
  rfl

end

section
variable {i : Instr} {s : State} {rd : Reg} {d q : Nat}
  (h : exec i s = endCommand i s (resultTo s rd (quotientOrFault d q)))
include h

theorem division_divZero (hd : d = 0) : FaultsWith i s .divZero := by
  rw [hd, quotientOrFault_zero] at h
  exact faultsWith_of_error h

theorem division_unrepresentable (hd : d ≠ 0) (hq : modulus ≤ q) : FaultsWith i s .unrepresentable := by
  rw [quotientOrFault_error hd hq] at h
  exact faultsWith_of_error h

theorem division_completes (hd : d ≠ 0) (hq : q < modulus) :
    ∃ t, exec i s = .next t ∧ t.u rd = q ∧ ChangesOnlyRegs [rd] s t := by
  rw [quotientOrFault_ok hd hq] at h
  exact completes_of_natCast h hq

/-- Executed with no fault latched, a division has faulted exactly if the divisor is 0 or the quotient does not fit; and
else it has left the quotient in its destination. -/
theorem division_outcome {t : State} (hs : s.fault = false) (ht : exec i s = .next t) :
    (t.fault = true ↔ d = 0 ∨ modulus ≤ q) ∧ (t.fault = false → t.u rd = q) := by
  by_cases hd : d = 0
  · obtain ⟨t', ht', hf, -⟩ := division_divZero h hd
    obtain rfl : t = t' := by simpa [ht] using ht'
    simp [hf, hd]
  · by_cases hq : modulus ≤ q
    · obtain ⟨t', ht', hf, -⟩ := division_unrepresentable h hd hq
      obtain rfl : t = t' := by simpa [ht] using ht'
      simp [hf, hq]
    · obtain ⟨t', ht', hu, -, -, ⟨hf, -, -⟩, -⟩ := division_completes h hd (Nat.not_le.mp hq)
      obtain rfl : t = t' := by simpa [ht] using ht'
      simp [hf, hs, hd, hq, hu]

end

/-- Settles O35: MULDIV.F is the division whose exact result is the floor. -/
theorem muldivFloors : Obligations.MuldivFloors := by
  unfold Obligations.MuldivFloors
  intro rd rs1 rs2 rs3 s
  have h := exec_muldivF rd rs1 rs2 rs3 s
  exact ⟨decodeOfEncode (.muldivF rd rs1 rs2 rs3) rfl, division_divZero h, division_unrepresentable h,
    division_completes h⟩

/-- Settles O36: MULDIV.C is the division whose exact result is the ceiling. -/
theorem muldivCeils : Obligations.MuldivCeils := by
  unfold Obligations.MuldivCeils
  intro rd rs1 rs2 rs3 s
  have h := exec_muldivC rd rs1 rs2 rs3 s
  exact ⟨decodeOfEncode (.muldivC rd rs1 rs2 rs3) rfl, division_divZero h, division_unrepresentable h,
    division_completes h⟩

/-- Settles O39: DIVRU is the division whose exact result is the ceiling, which always fits. -/
theorem divruCeils : Obligations.DivruCeils := by
  unfold Obligations.DivruCeils
  intro rd rs1 rs2 s
  have h := exec_divru rd rs1 rs2 s
  exact ⟨decodeOfEncode (.divru rd rs1 rs2) rfl, division_divZero h,
    fun hd => division_completes h hd ((ceil_le_dividend hd _).trans_lt (u_lt_modulus s rs1))⟩

/-- Settles O34: the halves are remainder and quotient by 2^256; `d <= ab/2^256` and `2^256 <= ab/d` both say
`d * 2^256 <= ab`. -/
theorem productHalvesAreExact : Obligations.ProductHalvesAreExact := by
  unfold Obligations.ProductHalvesAreExact
  intro rd rs1 rs2 rs3 s
  obtain ⟨hi, hhi, hiu, -⟩ := exec_mulhw_completes rd rs1 rs2 s
  obtain ⟨lo, hlo, lou, -⟩ := exec_mulw_completes rd rs1 rs2 s
  refine ⟨hi, lo, hhi, hlo, by rw [hiu, lou]; exact Nat.div_add_mod' _ _, fun hs hd => ?_⟩
  have hexec := exec_muldivF rd rs1 rs2 rs3 s
  have hswap : s.u rs3 ≤ hi.u rd ↔ modulus ≤ s.u rs1 * s.u rs2 / s.u rs3 := by
    rw [hiu, Nat.le_div_iff_mul_le (by decide), Nat.le_div_iff_mul_le (Nat.pos_of_ne_zero hd), Nat.mul_comm]
  rw [hswap]
  constructor
  · exact division_unrepresentable hexec hd
  · rintro ⟨t, ht, hf, -⟩
    exact ((division_outcome hexec hs ht).1.mp hf).resolve_left hd

/-- Settles O37: a run without a fault has left the floor of `ab/d` in its destination, and `d` is not 0. -/
theorem muldivFloorIsExact : Obligations.MuldivFloorIsExact := by
  unfold Obligations.MuldivFloorIsExact
  intro rd rs1 rs2 rs3 s t hs ht hf
  obtain ⟨hfault, hu⟩ := division_outcome (exec_muldivF rd rs1 rs2 rs3 s) hs ht
  have hd : s.u rs3 ≠ 0 := fun hd => by simp [hfault.mpr (.inl hd)] at hf
  rw [hu hf]
  exact ⟨Nat.div_mul_le_self _ _, Nat.mul_comm _ (s.u rs3) ▸ Nat.lt_mul_div_succ _ (Nat.pos_of_ne_zero hd)⟩

/-- Settles O38: both modes are divisions by `d`, of which the ceiling is the floor, and 1 more if there is a
remainder. -/
theorem roundingModesDifferByRemainder : Obligations.RoundingModesDifferByRemainder := by
  unfold Obligations.RoundingModesDifferByRemainder
  intro rd rs1 rs2 rs3 s f c hs hf hc
  obtain ⟨hff, hfu⟩ := division_outcome (exec_muldivF rd rs1 rs2 rs3 s) hs hf
  obtain ⟨hcf, hcu⟩ := division_outcome (exec_muldivC rd rs1 rs2 rs3 s) hs hc
  by_cases hd : s.u rs3 = 0
  · simp [hff.mpr (.inl hd), hcf.mpr (.inl hd)]
  · rw [ceil_eq_floor_add hd] at hcf hcu
    refine ⟨fun h => hcf.mpr ((hff.mp h).imp_right (Nat.le_add_right_of_le ·)), fun h => ?_,
      fun h h' => by rw [hcu h', hfu h]⟩
    have hfits : ¬ modulus ≤ s.u rs1 * s.u rs2 / s.u rs3 := fun hq => by simp [hff.mpr (.inr hq)] at h
    by_cases hr : s.u rs1 * s.u rs2 % s.u rs3 = 0
    · simp [hcf, hd, hr, hfits]
    · simp only [hcf, hd, hr, hfits, ne_eq, not_false_iff, if_true, modulus_le_add_one_iff, false_or, and_true]

/-! ## The bit scans (R66, R67) -/

section
variable {i : Instr} {s : State} {rd : Reg} {find : Nat → Nat} {v : Nat}
  (h : exec i s = endCommand i s (resultTo s rd (scan find v)))
include h

theorem scan_zeroScan (hv : v = 0) : FaultsWith i s .zeroScan := by
  rw [scan, if_pos hv] at h
  exact faultsWith_of_error h

/-- The index of a bit of a 256-bit value fits in a register. -/
theorem scan_completes (hv : v ≠ 0) (hmod : v < modulus) (hbit : 2 ^ find v ≤ v) :
    ∃ t, exec i s = .next t ∧ t.u rd = find v ∧ ChangesOnlyRegs [rd] s t := by
  rw [scan, if_neg hv] at h
  exact completes_of_natCast h ((Nat.lt_two_pow_self.trans_le hbit).trans hmod)

end

/-- A power of two that divides a non-zero value has at most the exponent of its lowest set bit (R67). -/
theorem le_lowestBit {v j : Nat} (hv : v ≠ 0) (hmod : v < modulus) (hj : 2 ^ j ∣ v) : j ≤ lowestBit v :=
  Nat.le_of_not_lt fun hlt => (lowestBit_spec hv hmod).2 ((pow_dvd_pow 2 hlt).trans hj)

/-- Settles O40: the scan finds `highestBit`, which `highestBit_spec` pins. -/
theorem msbFindsHighestBit : Obligations.MsbFindsHighestBit := by
  unfold Obligations.MsbFindsHighestBit
  intro rd rs1 s
  have h := exec_msb rd rs1 s
  refine ⟨decodeOfEncode (.msb rd rs1) rfl, scan_zeroScan h, fun hv => ?_⟩
  obtain ⟨hle, hlt⟩ := highestBit_spec hv
  obtain ⟨t, ht, hu, hframe⟩ := scan_completes h hv (u_lt_modulus s rs1) hle
  exact ⟨t, ht, hu ▸ hle, hu ▸ hlt, hframe⟩

/-- Settles O41: the scan finds `lowestBit`, which divides out, and no higher power does. -/
theorem lsbFindsLowestBit : Obligations.LsbFindsLowestBit := by
  unfold Obligations.LsbFindsLowestBit
  intro rd rs1 s
  have h := exec_lsb rd rs1 s
  refine ⟨decodeOfEncode (.lsb rd rs1) rfl, scan_zeroScan h, fun hv => ?_⟩
  have hmod := u_lt_modulus s rs1
  have hdvd := (lowestBit_spec hv hmod).1
  obtain ⟨t, ht, hu, hframe⟩ := scan_completes h hv hmod (Nat.le_of_dvd (Nat.pos_of_ne_zero hv) hdvd)
  exact ⟨t, ht, hu ▸ hdvd, fun j hj => hu ▸ le_lowestBit hv hmod hj, hframe⟩

end Sys2Proof.Machine

namespace Sys2Proof.Machine

/-! ## The constant ROM (spec/41_fixedpoint_const.md R73, R74) -/

/-- LDC always completes: the entry's value, encoded, goes to the destination (R73). -/
theorem exec_ldc (rd : Reg) (e : RomEntry) (s : State) :
    exec (.ldc rd e) s = .next (s.setReg rd (enc (romValue e))) := rfl

/-- With the opcode of LDC only the clause of format RK can make fields legal (R47, R48). -/
theorem legalFields_ldc_iff {f : Fields} (hop : f.op = 0x01) :
    LegalFields f ↔ f.f2 = 0 ∧ f.f3 = 0 ∧ f.f4 = 0 ∧ f.fn.toNat ≤ 8 := by
  simp [LegalFields, hop]

/-- Settles O28: the word is LDC's own encoding, and a word with LDC's opcode that decodes has legal fields. -/
theorem ldcLoadsRomEntry : Obligations.LdcLoadsRomEntry := by
  unfold Obligations.LdcLoadsRomEntry
  refine ⟨fun rd e s => ⟨decodeOfEncode (.ldc rd e) rfl, _, exec_ldc rd e s, setReg_reg_self s rd _,
    changesOnlyRegs_setReg s rd _⟩, fun f hop hbad i hi => ?_⟩
  have hlegal := (decodeAcceptsExactlyLegalWords (wordOfFields f)).mp ⟨i, hi⟩
  rw [fieldsOf_wordOfFields] at hlegal
  obtain ⟨h2, h3, h4, hfn⟩ := (legalFields_ldc_iff hop).mp hlegal
  simp [h2, h3, h4, Nat.not_lt.mpr hfn] at hbad

/-- A selector of at most 8 names the entry whose selector it is (R74). -/
theorem exists_romEntry_of_lt_nine {k : Nat} (hk : k < 9) : ∃ e, k = (romSelector e).toNat := by
  have h8 : (BitVec.ofNat 8 k).toNat = k := Nat.mod_eq_of_lt (by omega)
  obtain ⟨e, he⟩ := exists_romSelector (k := BitVec.ofNat 8 k) (by omega)
  exact ⟨e, by rw [he, h8]⟩

/-- Settles O29: the entries one by one; each value fits the view it is read back by. -/
theorem ldcGivesTheNineConstants : Obligations.LdcGivesTheNineConstants := by
  unfold Obligations.LdcGivesTheNineConstants
  intro rd s k hk
  obtain ⟨e, rfl⟩ := exists_romEntry_of_lt_nine (List.mem_range.mp hk)
  refine ⟨e, _, by rw [BitVec.ofNat_toNat, BitVec.setWidth_eq, romEntryOf_romSelector], exec_ldc rd e s, ?_⟩
  rw [setReg_u_self, setReg_s_self]
  cases e
  case minTick | maxTick =>
    simp [romSelector, romValue, minTick, maxTick, enc_toInt]
  case zero | one | q96 | q128 | maxU256 | minSqrtRatio | maxSqrtRatio =>
    simp [romSelector, romValue, minSqrtRatio, maxSqrtRatio, enc_toNat]

end Sys2Proof.Machine

namespace Sys2Proof.Machine

/-! ## Logarithms of natural numbers and of their quotients -/

section
open Real

/-- If `b` exceeds `a` by at most one part in `n`, its logarithm exceeds that of `a` by at most `1/n`. -/
theorem log_le_log_add_inv {a b n : Nat} (ha : 0 < a) (hb : 0 < b) (hn : 0 < n) (h : b * n ≤ a * (n + 1)) :
    log b ≤ log a + 1 / n := by
  have ha' : (0 : ℝ) < a := by exact_mod_cast ha
  have hb' : (0 : ℝ) < b := by exact_mod_cast hb
  have hn' : (0 : ℝ) < n := by exact_mod_cast hn
  have h' : (b : ℝ) * n ≤ a * (n + 1) := by exact_mod_cast h
  have hratio : (b : ℝ) / a - 1 ≤ 1 / n := by
    rw [div_sub_one ha'.ne', div_le_div_iff₀ ha' hn']
    linarith
  have hlog := log_le_sub_one_of_pos (div_pos hb' ha')
  rw [log_div hb'.ne' ha'.ne'] at hlog
  linarith

/-- A floor quotient that is at least `n` has the logarithm of the exact quotient, less at most `1/n`. -/
theorem log_floor_bounds {a d n : Nat} (hn : 0 < n) (h : n ≤ a / d) :
    log ((a / d : Nat) : ℝ) ≤ log a - log d ∧ log a - log d ≤ log ((a / d : Nat) : ℝ) + 1 / n := by
  have hq : 0 < a / d := hn.trans_le h
  have hd : 0 < d := Nat.pos_of_ne_zero fun h0 => by simp [h0] at hq
  have hle : a / d * d ≤ a := Nat.div_mul_le_self a d
  have hlt : a < a / d * d + d := Nat.lt_div_mul_add hd
  have hqd : 0 < a / d * d := Nat.mul_pos hq hd
  have hlog : log ((a / d * d : Nat) : ℝ) = log ((a / d : Nat) : ℝ) + log d := by
    rw [Nat.cast_mul, log_mul (by exact_mod_cast hq.ne') (by exact_mod_cast hd.ne')]
  constructor
  · have := log_le_log (by exact_mod_cast hqd) (show ((a / d * d : Nat) : ℝ) ≤ a by exact_mod_cast hle)
    linarith
  · have := log_le_log_add_inv hqd (hqd.trans_le hle) hn (by nlinarith)
    linarith

/-- Two numbers that differ by at most one part in `n` have logarithms that differ by at most `1/n`. -/
theorem abs_log_sub_log_le {a b n : Nat} (ha : 0 < a) (hb : 0 < b) (hn : 0 < n)
    (h : a * n ≤ b * (n + 1) ∧ b * n ≤ a * (n + 1)) : |log a - log b| ≤ 1 / n := by
  have hab := log_le_log_add_inv hb ha hn h.1
  have hba := log_le_log_add_inv ha hb hn h.2
  exact abs_sub_le_iff.mpr ⟨by linarith, by linarith⟩

theorem log_natCast_pow (a n : Nat) : log ((a ^ n : Nat) : ℝ) = n * log a := by
  rw [Nat.cast_pow, log_pow]

theorem log_natCast_mul {a b : Nat} (ha : 0 < a) (hb : 0 < b) : log ((a * b : Nat) : ℝ) = log a + log b := by
  rw [Nat.cast_mul, log_mul (by exact_mod_cast ha.ne') (by exact_mod_cast hb.ne')]

end

/-! ## The ladder constants approximate the powers of the price step (spec/42_tickmath.md R77) -/

section
open Real

/-- The logarithm of the square-root price's factor per tick, `sqrt(1.0001)`. -/
noncomputable def tickLog : ℝ := log (10001 / 10000) / 2

theorem two_mul_tickLog : 2 * tickLog = log (10001 : Nat) - log (10000 : Nat) := by
  rw [tickLog, mul_div_cancel₀ _ (by norm_num), log_div (by norm_num) (by norm_num)]
  norm_num

theorem ladderAt_pos : ∀ k < 20, 0 < ladderAt k := by decide

theorem ladderAt_lt : ∀ k < 20, ladderAt k < 2 ^ 128 := by decide

/-- `K[0]^2` is `2^256 / 1.0001`, to one part in `2^80`. -/
theorem ladderAt_zero_sq :
    ladderAt 0 ^ 2 * 10001 * 2 ^ 80 ≤ 2 ^ 256 * 10000 * (2 ^ 80 + 1) ∧
    2 ^ 256 * 10000 * 2 ^ 80 ≤ ladderAt 0 ^ 2 * 10001 * (2 ^ 80 + 1) := by decide

/-- Each constant is the square of the one before, to one part in `2^80`. -/
theorem ladderAt_succ_sq : ∀ k < 19,
    ladderAt (k + 1) * 2 ^ 128 * 2 ^ 80 ≤ ladderAt k ^ 2 * (2 ^ 80 + 1) ∧
    ladderAt k ^ 2 * 2 ^ 80 ≤ ladderAt (k + 1) * 2 ^ 128 * (2 ^ 80 + 1) := by decide

/-- `K[k]` is `2^128` less `2^k` ticks; the error doubles with each squaring (R77). -/
theorem abs_log_ladderAt_le : ∀ k < 20,
    |log (ladderAt k) - (128 * log 2 - 2 ^ k * tickLog)| ≤ (2 ^ (k + 1) - 1) / 2 ^ 80
  | 0, h => by
    have hK := ladderAt_pos 0 h
    have hsq := abs_log_sub_log_le (by positivity) (by positivity) (by decide) ladderAt_zero_sq
    rw [log_natCast_mul (by positivity) (by decide), log_natCast_mul (by decide) (by decide), log_natCast_pow,
      log_natCast_pow, abs_le] at hsq
    have htick := two_mul_tickLog
    push_cast at hsq htick
    rw [abs_le]
    constructor <;> linarith
  | k + 1, h => by
    have hK := ladderAt_pos k (by omega)
    have hK' := ladderAt_pos (k + 1) h
    have ih := abs_log_ladderAt_le k (by omega)
    have hsq := abs_log_sub_log_le (by positivity) (by positivity) (by decide) (ladderAt_succ_sq k (by omega))
    rw [log_natCast_mul hK' (by decide), log_natCast_pow, log_natCast_pow, abs_le] at hsq
    push_cast at hsq
    rw [abs_le] at ih ⊢
    rw [pow_succ 2 (k + 1), pow_succ 2 k] at *
    constructor <;> linarith

/-- `K[k]` is `2^128` less `2^k` ticks, to one part in `2^60`. -/
theorem abs_log_ladderAt_le_uniform {k : Nat} (hk : k < 20) :
    |log (ladderAt k) - (128 * log 2 - 2 ^ k * tickLog)| ≤ 1 / 2 ^ 60 := by
  refine (abs_log_ladderAt_le k hk).trans ?_
  have hpow : (2 : ℝ) ^ (k + 1) ≤ 2 ^ 20 := pow_le_pow_right₀ (by norm_num) hk
  rw [div_le_div_iff₀ (by positivity) (by positivity)]
  linarith

/-! ## The ladder, bit by bit (R78) -/

/-- The ratio after the lowest `n` bits of `a = |tick|`, starting from `2^128`. -/
def climb (a : Nat) : Nat → Nat
  | 0 => 2 ^ 128
  | n + 1 => ladderStep a (climb a n) n

/-- Starting from `2^128`, the step of bit 0 gives the start that R78 names. -/
theorem climb_one (a : Nat) : climb a 1 = if a.testBit 0 then ladderAt 0 else 2 ^ 128 := by
  simp only [climb, ladderStep]
  rfl

/-- The model's ladder is the climb through twenty bits. -/
theorem ladderRatio_eq_climb (a : Nat) : ladderRatio a = climb a 20 := by
  rw [ladderRatio, ← climb_one]
  rfl

theorem ladderStep_set {a k : Nat} (h : a.testBit k = true) (r : Nat) :
    ladderStep a r k = r * ladderAt k / 2 ^ 128 := by
  rw [ladderStep, if_pos h, Nat.shiftRight_eq_div_pow]

theorem ladderStep_clear {a k : Nat} (h : a.testBit k = false) (r : Nat) : ladderStep a r k = r := by
  rw [ladderStep, if_neg (by simp [h])]

/-- Every constant is below `2^128`, so a step never raises the ratio. -/
theorem ladderStep_le {k : Nat} (hk : k < 20) (a r : Nat) : ladderStep a r k ≤ r := by
  cases h : a.testBit k with
  | true =>
    rw [ladderStep_set h]
    exact Nat.div_le_of_le_mul ((Nat.mul_comm _ _).trans_le (Nat.mul_le_mul_right r (ladderAt_lt k hk).le))
  | false => rw [ladderStep_clear h]

theorem climb_le : ∀ {n : Nat}, n ≤ 20 → ∀ a, climb a n ≤ 2 ^ 128
  | 0, _, _ => le_rfl
  | _ + 1, h, a => (ladderStep_le h a _).trans (climb_le (Nat.le_of_succ_le h) a)

/-- With every bit set the ratio falls the most. -/
theorem climb_ones_le : ∀ {n : Nat}, n ≤ 20 → ∀ a, climb (2 ^ 20 - 1) n ≤ climb a n
  | 0, _, _ => le_rfl
  | n + 1, h, a => by
    have ih := climb_ones_le (Nat.le_of_succ_le h) a
    have hones : (2 ^ 20 - 1).testBit n = true := by
      rw [Nat.testBit_two_pow_sub_one, decide_eq_true (Nat.lt_of_succ_le h)]
    rw [climb, ladderStep_set hones, climb]
    cases ha : a.testBit n with
    | true =>
      rw [ladderStep_set ha]
      exact Nat.div_le_div_right (Nat.mul_le_mul_right _ ih)
    | false =>
      rw [ladderStep_clear ha, ← ladderStep_set hones]
      exact (ladderStep_le h _ _).trans ih

/-- No climb falls below `2^52`. -/
theorem le_climb {n : Nat} (hn : n ≤ 20) (a : Nat) : 2 ^ 52 ≤ climb a n := by
  have hones : ∀ n ≤ 20, 2 ^ 52 ≤ climb (2 ^ 20 - 1) n := by decide
  exact (hones n hn).trans (climb_ones_le hn a)

/-- Each step takes its bit's ticks off the logarithm of the ratio, up to the truncation and the constant's error. -/
theorem abs_log_climb_le (a : Nat) : ∀ {n : Nat}, n ≤ 20 →
    |log (climb a n) - (128 * log 2 - (a % 2 ^ n : Nat) * tickLog)| ≤ n / 2 ^ 51
  | 0, _ => by
    rw [climb, log_natCast_pow]
    simp [Nat.mod_one]
  | n + 1, h => by
    have ih := abs_log_climb_le a (Nat.le_of_succ_le h)
    rw [Nat.mod_pow_succ, ← Nat.toNat_testBit, climb]
    cases ha : a.testBit n with
    | true =>
      have hle : 2 ^ 52 ≤ climb a n * ladderAt n / 2 ^ 128 := by
        simpa [climb, ladderStep_set ha] using le_climb h a
      obtain ⟨hlo, hhi⟩ := log_floor_bounds (by decide) hle
      have hr : 0 < climb a n := (by decide : 0 < 2 ^ 52).trans_le (le_climb (Nat.le_of_succ_le h) a)
      have hK := abs_log_ladderAt_le_uniform h
      rw [log_natCast_mul hr (ladderAt_pos n h), log_natCast_pow] at hlo hhi
      rw [ladderStep_set ha]
      push_cast at ih hlo hhi hK ⊢
      rw [abs_le] at ih hK ⊢
      simp only [Bool.toNat_true, Nat.cast_one]
      constructor <;> linarith
    | false =>
      rw [ladderStep_clear ha]
      push_cast at ih ⊢
      rw [abs_le] at ih ⊢
      simp only [Bool.toNat_false, Nat.cast_zero]
      constructor <;> linarith

/-! ## T2P's ratio is the power of the price step, so its price rises with the tick (R78, R80) -/

theorem tickRatio_pos {t : Int} (h : 0 < t) : tickRatio t = (2 ^ 256 - 1) / climb t.natAbs 20 := by
  rw [tickRatio, if_pos h, ladderRatio_eq_climb]

theorem tickRatio_nonpos {t : Int} (h : t ≤ 0) : tickRatio t = climb t.natAbs 20 := by
  rw [tickRatio, if_neg (Int.not_lt.mpr h), ladderRatio_eq_climb]

/-- The inverted ratio of a positive tick is far above 0 (R85). -/
theorem le_inverse (a : Nat) : 2 ^ 127 ≤ (2 ^ 256 - 1) / climb a 20 :=
  (Nat.le_div_iff_mul_le ((by decide : 0 < 2 ^ 52).trans_le (le_climb le_rfl a))).mpr
    ((Nat.mul_le_mul_left _ (climb_le le_rfl a)).trans (by decide))

theorem le_tickRatio (t : Int) : 2 ^ 52 ≤ tickRatio t := by
  by_cases h : 0 < t
  · rw [tickRatio_pos h]
    exact (by decide : 2 ^ 52 ≤ 2 ^ 127).trans (le_inverse _)
  · rw [tickRatio_nonpos (Int.not_lt.mp h)]
    exact le_climb le_rfl _

/-- The ratio of the tick `t` is `2^128` times the `t`-th power of the price step, up to a relative error below
`2^-45`. -/
theorem abs_log_tickRatio_le {t : Int} (ht : t.natAbs < 2 ^ 20) :
    |log (tickRatio t) - (128 * log 2 + t * tickLog)| ≤ 1 / 2 ^ 45 := by
  have hclimb := abs_log_climb_le t.natAbs (le_refl 20)
  rw [Nat.mod_eq_of_lt ht, abs_le] at hclimb
  by_cases h : 0 < t
  · have habs : (t.natAbs : ℝ) = t := by rw [Nat.cast_natAbs, abs_of_pos h]
    have hmax : |log ((2 ^ 256 - 1 : Nat) : ℝ) - log ((2 ^ 256 : Nat) : ℝ)| ≤ 1 / (2 ^ 127 : Nat) :=
      abs_log_sub_log_le (by decide) (by decide) (by decide) (by decide)
    obtain ⟨hlo, hhi⟩ := log_floor_bounds (by decide) (le_inverse t.natAbs)
    rw [log_natCast_pow, abs_le] at hmax
    rw [habs] at hclimb
    rw [tickRatio_pos h, abs_le]
    push_cast at *
    constructor <;> linarith
  · have habs : (t.natAbs : ℝ) = -t := by
      rw [Nat.cast_natAbs, abs_of_nonpos (Int.not_lt.mp h), Int.cast_neg]
    rw [habs] at hclimb
    rw [tickRatio_nonpos (Int.not_lt.mp h), abs_le]
    push_cast at hclimb
    constructor <;> linarith

theorem tickLog_bounds : 4.99975001 / 100000 < tickLog ∧ tickLog < 4.99975002 / 100000 := by
  have h := abs_log_sub_add_sum_range_le (x := -1 / 10000) (by norm_num [abs_lt]) 3
  rw [show (1 : ℝ) - -1 / 10000 = 10001 / 10000 by norm_num,
    show log (10001 / 10000) = 2 * tickLog by rw [tickLog]; ring, abs_le] at h
  norm_num [Finset.sum_range_succ, abs_of_neg] at h
  constructor <;> linarith

/-- From one tick to a later one the ratio rises by more than the last shift of T2P drops. -/
theorem tickRatio_add_lt {t t' : Int} (ht : t.natAbs < 2 ^ 20) (ht' : t'.natAbs < 2 ^ 20) (hlt : t < t') :
    tickRatio t + 2 ^ 32 ≤ tickRatio t' := by
  by_contra hnot
  have hle := le_tickRatio t
  have hle' := le_tickRatio t'
  have hlog := log_le_log_add_inv (a := tickRatio t) (b := tickRatio t') (n := 2 ^ 20) (by omega) (by omega)
    (by decide) (by omega)
  have hstep : (t : ℝ) + 1 ≤ t' := by exact_mod_cast hlt
  have h := abs_log_tickRatio_le ht
  have h' := abs_log_tickRatio_le ht'
  have hB := tickLog_bounds.1
  rw [abs_le] at h h'
  have hmul : (t + 1) * tickLog ≤ t' * tickLog := mul_le_mul_of_nonneg_right hstep (by linarith)
  push_cast at hlog
  linarith

/-- The last shift of T2P, rounding up (R78). -/
theorem toQ96_eq (r : Nat) : toQ96 r = (r + (2 ^ 32 - 1)) / 2 ^ 32 := by
  rw [toQ96, Nat.shiftRight_eq_div_pow, ← Nat.add_sub_assoc (by decide), ceil_eq_floor_add (by decide)]

/-- The price of T2P is strictly increasing (R80). -/
theorem sqrtRatioAt_lt {t t' : Int} (ht : t.natAbs < 2 ^ 20) (ht' : t'.natAbs < 2 ^ 20) (hlt : t < t') :
    sqrtRatioAt t < sqrtRatioAt t' := by
  have h := tickRatio_add_lt ht ht' hlt
  rw [sqrtRatioAt, sqrtRatioAt, toQ96_eq, toQ96_eq]
  omega

theorem sqrtRatioAt_reference : sqrtRatioAt 0 = 2 ^ 96 ∧ sqrtRatioAt (-887272) = minSqrtRatio ∧
    sqrtRatioAt 887272 = maxSqrtRatio := by decide

end

/-! ## The fourteen squarings (spec/42_tickmath.md R82) -/

/-- The mantissa and the logarithm after `n` of the squarings that P2T makes for the price `p`. -/
def logAfter (p : Nat) : Nat → Nat × Int
  | 0 => (normalise (p <<< 32) (highestBit (p <<< 32)), ((highestBit (p <<< 32) : Int) - 128) * 2 ^ 64)
  | n + 1 => logStep (logAfter p n) (63 - n)

/-- The mantissa before squaring `n`. -/
def mantissa (p n : Nat) : Nat := (logAfter p n).1

/-- The logarithm, in units of `2^-64`, before squaring `n`. -/
def logSum (p n : Nat) : Int := (logAfter p n).2

/-- The fraction bit that squaring `n` yields. -/
def logBit (p n : Nat) : Nat := mantissa p n * mantissa p n / 2 ^ 127 / 2 ^ 128

theorem logPrice_eq (p : Nat) : logPrice p = logSum p 14 := rfl

theorem mantissa_zero (p : Nat) : mantissa p 0 = normalise (p <<< 32) (highestBit (p <<< 32)) := by
  rw [mantissa, logAfter]

theorem logSum_zero (p : Nat) : logSum p 0 = ((highestBit (p <<< 32) : Int) - 128) * 2 ^ 64 := by
  rw [logSum, logAfter]

theorem mantissa_succ (p n : Nat) :
    mantissa p (n + 1) = mantissa p n * mantissa p n / 2 ^ 127 / 2 ^ logBit p n := by
  simp only [mantissa, logBit, logAfter, logStep, Nat.shiftRight_eq_div_pow]

theorem logSum_succ (p n : Nat) : logSum p (n + 1) = logSum p n + (logBit p n : Int) * 2 ^ (63 - n) := by
  simp only [logSum, mantissa, logBit, logAfter, logStep, Nat.shiftRight_eq_div_pow]

/-- Normalising puts the highest bit `m` at 127, whichever way the shift goes. -/
theorem normalise_eq (ratio m : Nat) :
    normalise ratio m = if 128 ≤ m then ratio / 2 ^ (m - 127) else ratio * 2 ^ (127 - m) := by
  rw [normalise, Nat.shiftRight_eq_div_pow, Nat.shiftLeft_eq]

theorem normalise_eq_div (ratio m : Nat) : normalise ratio m = ratio * 2 ^ 127 / 2 ^ m := by
  rw [normalise_eq]
  split
  · have hm : 2 ^ m = 2 ^ (m - 127) * 2 ^ 127 := by rw [← pow_add]; congr 1; omega
    rw [hm, Nat.mul_div_mul_right _ _ (by positivity)]
  · have hm : 2 ^ 127 = 2 ^ (127 - m) * 2 ^ m := by rw [← pow_add]; congr 1; omega
    rw [hm, ← Nat.mul_assoc, Nat.mul_div_cancel _ (by positivity)]

theorem mantissa_zero_eq_div (p : Nat) :
    mantissa p 0 = p * 2 ^ 32 * 2 ^ 127 / 2 ^ highestBit (p <<< 32) := by
  rw [mantissa_zero, normalise_eq_div, ← Nat.shiftLeft_eq p]

/-- The square of a normalised mantissa, shifted back, has its highest bit at 127 or 128 (R82). -/
theorem square_bounds {r : Nat} (hlo : 2 ^ 127 ≤ r) (hhi : r < 2 ^ 128) :
    2 ^ 127 ≤ r * r / 2 ^ 127 ∧ r * r / 2 ^ 127 < 2 ^ 129 := by
  have hsq : 2 ^ 127 * 2 ^ 127 ≤ r * r := Nat.mul_le_mul hlo hlo
  have hsq' : r * r < 2 ^ 128 * 2 ^ 128 := Nat.mul_lt_mul'' hhi hhi
  omega

/-- Shifting such a value by its bit 128 normalises it (R82). -/
theorem shift_by_bit_bounds {v : Nat} (hlo : 2 ^ 127 ≤ v) (hhi : v < 2 ^ 129) :
    v / 2 ^ 128 ≤ 1 ∧ 2 ^ 127 ≤ v / 2 ^ (v / 2 ^ 128) ∧ v / 2 ^ (v / 2 ^ 128) < 2 ^ 128 := by
  obtain hf | hf : v / 2 ^ 128 = 0 ∨ v / 2 ^ 128 = 1 := by omega
  · rw [hf]
    omega
  · rw [hf]
    omega

theorem highestBit_price {p : Nat} (hp : 0 < p) :
    2 ^ highestBit (p <<< 32) ≤ p * 2 ^ 32 ∧ p * 2 ^ 32 < 2 ^ (highestBit (p <<< 32) + 1) := by
  rw [Nat.shiftLeft_eq]
  exact highestBit_spec (by positivity)

/-- The mantissa stays normalised (R86). -/
theorem mantissa_bounds {p : Nat} (hp : 0 < p) : ∀ n, 2 ^ 127 ≤ mantissa p n ∧ mantissa p n < 2 ^ 128
  | 0 => by
    obtain ⟨hlo, hhi⟩ := highestBit_price hp
    rw [mantissa_zero_eq_div, Nat.le_div_iff_mul_le (by positivity),
      Nat.div_lt_iff_lt_mul (by positivity)]
    rw [pow_succ _ (highestBit _)] at hhi
    constructor <;> nlinarith
  | n + 1 => by
    obtain ⟨hlo, hhi⟩ := mantissa_bounds hp n
    obtain ⟨hsq, hsq'⟩ := square_bounds hlo hhi
    rw [mantissa_succ, logBit]
    exact (shift_by_bit_bounds hsq hsq').2

theorem logBit_le_one {p : Nat} (hp : 0 < p) (n : Nat) : logBit p n ≤ 1 := by
  obtain ⟨hlo, hhi⟩ := mantissa_bounds hp n
  obtain ⟨hsq, hsq'⟩ := square_bounds hlo hhi
  exact (shift_by_bit_bounds hsq hsq').1

/-! ## The squarings approximate the base-2 logarithm of the price -/

section
open Real

/-- The natural logarithm of the price `p`, as the ratio `p / 2^96` that it stands for. -/
noncomputable def priceLog (p : Nat) : ℝ := log p - 96 * log 2

/-- What the first `n` squarings have left of the price's logarithm, at the weight of the `n`-th fraction bit. -/
noncomputable def logRest (p n : Nat) : ℝ := 2 ^ n * (priceLog p - log 2 * logSum p n / 2 ^ 64)

/-- A squaring doubles what is left and takes its bit off. -/
theorem logRest_succ (p : Nat) {n : Nat} (hn : n ≤ 63) :
    logRest p (n + 1) = 2 * logRest p n - logBit p n * log 2 := by
  have hweight : (2 : ℝ) ^ (n + 1) * 2 ^ (63 - n) = 2 ^ 64 := by rw [← pow_add]; congr 1; omega
  rw [logRest, logRest, logSum_succ, ← mul_right_inj' (show (2 : ℝ) ^ 64 ≠ 0 by positivity)]
  push_cast
  linear_combination (-(log 2 * logBit p n)) * hweight

/-- What is left is the logarithm of the mantissa, up to the truncations, each of which doubles with every later
squaring. -/
theorem logRest_bounds {p : Nat} (hp : 0 < p) : ∀ {n : Nat}, n ≤ 14 →
    log (mantissa p n) - 127 * log 2 ≤ logRest p n ∧
    logRest p n ≤ log (mantissa p n) - 127 * log 2 + (2 ^ (n + 1) - 1) / 2 ^ 127
  | 0, _ => by
    have hr := (mantissa_bounds hp 0).1
    rw [mantissa_zero_eq_div] at hr
    obtain ⟨hlo, hhi⟩ := log_floor_bounds (by decide) hr
    rw [← mantissa_zero_eq_div, log_natCast_mul (by positivity) (by positivity), log_natCast_mul hp (by positivity),
      log_natCast_pow, log_natCast_pow, log_natCast_pow] at hlo hhi
    rw [logRest, logSum_zero, priceLog]
    push_cast at *
    constructor <;> linarith
  | n + 1, h => by
    obtain ⟨ihlo, ihhi⟩ := logRest_bounds hp (Nat.le_of_succ_le h)
    have hr : 0 < mantissa p n := (by decide : 0 < 2 ^ 127).trans_le (mantissa_bounds hp n).1
    have hr' := (mantissa_bounds hp (n + 1)).1
    have hm : mantissa p (n + 1) = mantissa p n * mantissa p n / 2 ^ (127 + logBit p n) := by
      rw [mantissa_succ, Nat.div_div_eq_div_mul, pow_add]
    rw [hm] at hr'
    obtain ⟨hlo, hhi⟩ := log_floor_bounds (by decide) hr'
    rw [← hm, log_natCast_mul hr hr, log_natCast_pow] at hlo hhi
    rw [logRest_succ p (by omega), pow_succ 2 (n + 1)]
    push_cast at *
    constructor <;> linarith

/-- P2T's logarithm is below that of the price by less than the last fraction bit and the truncations. -/
theorem logPrice_bounds {p : Nat} (hp : 0 < p) :
    log 2 * logPrice p ≤ 2 ^ 64 * priceLog p ∧
    2 ^ 64 * priceLog p ≤ log 2 * (logPrice p + 2 ^ 50) + 1 := by
  obtain ⟨hlo, hhi⟩ := logRest_bounds hp le_rfl
  obtain ⟨hr, hr'⟩ := mantissa_bounds hp 14
  have hlog := log_le_log (by positivity) (show ((2 ^ 127 : Nat) : ℝ) ≤ mantissa p 14 by exact_mod_cast hr)
  have hlog' := log_le_log (by exact_mod_cast (by decide : 0 < 2 ^ 127).trans_le hr)
    (show (mantissa p 14 : ℝ) ≤ (2 ^ 128 : Nat) by exact_mod_cast hr'.le)
  rw [log_natCast_pow] at hlog hlog'
  rw [logRest, ← logPrice_eq] at hlo hhi
  push_cast at hlog hlog'
  constructor <;> linarith

/-! ## The two candidates bracket the tick (R82, R83, R86) -/

/-- LOGC turns the base-2 logarithm of a tick's price into that tick, to less than half a hundredth. -/
theorem abs_logConstant_mul_sub_le {t : Int} (h0 : -887272 ≤ t) (h1 : t ≤ 887272) :
    |2 ^ 64 * logConstant * (t * tickLog) - log 2 * (t * 2 ^ 128)| ≤ 2 ^ 128 / 200 := by
  obtain ⟨hB, hB'⟩ := tickLog_bounds
  have h2 := log_two_gt_d9
  have h2' := log_two_lt_d9
  have hunit : |2 ^ 64 * logConstant * tickLog - log 2 * 2 ^ 128| ≤ 2 ^ 128 / 200000000 := by
    rw [logConstant, abs_le]
    push_cast
    constructor <;> linarith
  have ht : |(t : ℝ)| ≤ 887272 := abs_le.mpr ⟨by exact_mod_cast h0, by exact_mod_cast h1⟩
  calc |2 ^ 64 * logConstant * (t * tickLog) - log 2 * (t * 2 ^ 128)|
      = |(t : ℝ)| * |2 ^ 64 * logConstant * tickLog - log 2 * 2 ^ 128| := by rw [← abs_mul]; ring_nf
    _ ≤ 887272 * (2 ^ 128 / 200000000) := mul_le_mul ht hunit (abs_nonneg _) (by norm_num)
    _ ≤ 2 ^ 128 / 200 := by norm_num

/-- The logarithm of a price from the price of the tick `t` up to that of the next. -/
theorem priceLog_bounds {t : Int} {p : Nat} (h0 : -887272 ≤ t) (h1 : t ≤ 887271) (hle : sqrtRatioAt t ≤ p)
    (hlt : p < sqrtRatioAt (t + 1)) :
    0 < p ∧ t * tickLog - 1 / 2 ^ 45 ≤ priceLog p ∧ priceLog p ≤ (t + 1) * tickLog + 1 / 2 ^ 45 := by
  rw [sqrtRatioAt, toQ96_eq] at hle hlt
  have hV := le_tickRatio t
  have hp : 0 < p := by omega
  have hlo : tickRatio t ≤ p * 2 ^ 32 := by omega
  have hhi : p * 2 ^ 32 ≤ tickRatio (t + 1) := by omega
  have hlog := log_le_log (by exact_mod_cast (by omega : 0 < tickRatio t))
    (show (tickRatio t : ℝ) ≤ (p * 2 ^ 32 : Nat) by exact_mod_cast hlo)
  have hlog' := log_le_log (by positivity) (show ((p * 2 ^ 32 : Nat) : ℝ) ≤ tickRatio (t + 1) by exact_mod_cast hhi)
  rw [log_natCast_mul hp (by decide), log_natCast_pow] at hlog hlog'
  have ht := abs_log_tickRatio_le (t := t) (by omega)
  have ht' := abs_log_tickRatio_le (t := t + 1) (by omega)
  rw [abs_le] at ht ht'
  rw [priceLog]
  push_cast at *
  exact ⟨hp, by linarith, by linarith⟩

/-- The lower candidate is at most the tick of the price, the upper one at least (R83). LOGC times P2T's logarithm
falls short of the price's place on the scale of ticks by less than 0.847 of a tick, the fourteenth fraction bit; the two
adjustments leave a hundredth of a tick on either side for all other errors. -/
theorem tickLow_le_and_le_tickHigh {t : Int} {p : Nat} (h0 : -887272 ≤ t) (h1 : t ≤ 887271)
    (hle : sqrtRatioAt t ≤ p) (hlt : p < sqrtRatioAt (t + 1)) : tickLow p ≤ t ∧ t ≤ tickHigh p := by
  obtain ⟨hp, hz, hz'⟩ := priceLog_bounds h0 h1 hle hlt
  obtain ⟨hL, hL'⟩ := logPrice_bounds hp
  have hC := abs_logConstant_mul_sub_le h0 (by omega)
  have hC' := abs_logConstant_mul_sub_le (t := t + 1) (by omega) (by omega)
  have h2 := log_two_gt_d9
  rw [abs_le] at hC hC'
  constructor
  · have key : log 2 * (logPrice p * logConstant : ℝ) < log 2 * ((t + 1) * 2 ^ 128 + lowAdjust) := by
      rw [logConstant] at hC' ⊢
      rw [lowAdjust]
      push_cast at hC' ⊢
      linarith
    have key' : logPrice p * logConstant < (t + 1) * 2 ^ 128 + lowAdjust := by
      exact_mod_cast lt_of_mul_lt_mul_left key (by linarith)
    rw [tickLow]
    omega
  · have key : log 2 * (t * 2 ^ 128 : ℝ) ≤ log 2 * (logPrice p * logConstant + highAdjust) := by
      rw [logConstant] at hC ⊢
      rw [highAdjust]
      push_cast at hC ⊢
      linarith
    have key' : t * 2 ^ 128 ≤ logPrice p * logConstant + highAdjust := by
      exact_mod_cast le_of_mul_le_mul_left key (by linarith)
    rw [tickHigh]
    omega

end

/-- The two adjustments add up to less than a tick, so the candidates are equal or neighbours. -/
theorem tickHigh_bounds (p : Nat) : tickLow p ≤ tickHigh p ∧ tickHigh p ≤ tickLow p + 1 := by
  rw [tickLow, tickHigh, lowAdjust, highAdjust]
  omega

/-- P2T's choice is the tick in whose price interval the price lies (R83). -/
theorem chooseTick_eq {t : Int} {p : Nat} (h0 : -887272 ≤ t) (h1 : t ≤ 887271)
    (hle : sqrtRatioAt t ≤ p) (hlt : p < sqrtRatioAt (t + 1)) : chooseTick p = t := by
  obtain ⟨hlo, hhi⟩ := tickLow_le_and_le_tickHigh h0 h1 hle hlt
  obtain ⟨-, hnext⟩ := tickHigh_bounds p
  obtain heq | heq : tickHigh p = t ∨ tickHigh p = t + 1 := by omega
  · rw [chooseTick, heq, if_pos hle]
    split <;> omega
  · rw [chooseTick, heq, if_neg (Nat.not_le.mpr hlt)]
    split <;> omega

/-! ## The prices of the ticks and the ticks of the prices (R79, R80, R83) -/

theorem sqrtRatioAt_le {t t' : Int} (h0 : -887272 ≤ t) (hle : t ≤ t') (h1 : t' ≤ 887272) :
    sqrtRatioAt t ≤ sqrtRatioAt t' := by
  obtain rfl | hlt := hle.eq_or_lt
  · rfl
  · exact (sqrtRatioAt_lt (by omega) (by omega) hlt).le

/-- The prices of the ticks lie between those of the first and of the last (R80). -/
theorem sqrtRatioAt_bounds {t : Int} (h0 : -887272 ≤ t) (h1 : t ≤ 887272) :
    minSqrtRatio ≤ sqrtRatioAt t ∧ sqrtRatioAt t ≤ maxSqrtRatio := by
  obtain ⟨-, hmin, hmax⟩ := sqrtRatioAt_reference
  exact ⟨hmin ▸ sqrtRatioAt_le le_rfl h0 h1, hmax ▸ sqrtRatioAt_le h0 h1 le_rfl⟩

/-- Every price that P2T admits lies in the price interval of a tick. -/
theorem exists_tick_of_price {p : Nat} (h0 : minSqrtRatio ≤ p) (h1 : p < maxSqrtRatio) :
    ∃ t : Int, -887272 ≤ t ∧ t ≤ 887271 ∧ sqrtRatioAt t ≤ p ∧ p < sqrtRatioAt (t + 1) := by
  obtain ⟨-, hmin, hmax⟩ := sqrtRatioAt_reference
  obtain ⟨t, ⟨hle, ht⟩, hgreatest⟩ := Int.exists_greatest_of_bdd (P := fun t => sqrtRatioAt t ≤ p ∧ t ≤ 887272)
    ⟨887272, fun _ h => h.2⟩ ⟨-887272, by omega, by decide⟩
  have hne : t ≠ 887272 := fun h => by
    rw [h] at hle
    omega
  refine ⟨t, hgreatest _ ⟨by omega, by decide⟩, by omega, hle, Nat.lt_of_not_le fun hnext => ?_⟩
  have := hgreatest (t + 1) ⟨hnext, by omega⟩
  omega

/-! ## T2P and P2T as commands (R78, R82) -/

section
variable (rd rs1 : Reg) (s : State)

theorem exec_t2p : exec (.t2p rd rs1) s =
    endCommand (.t2p rd rs1) s (resultTo s rd (getSqrtRatioAtTick (s.s rs1))) := rfl

theorem exec_p2t : exec (.p2t rd rs1) s =
    endCommand (.p2t rd rs1) s (resultTo s rd (getTickAtSqrtRatio (s.u rs1))) := rfl

end

section
variable (rd : Reg) {rs1 : Reg} {s : State}

theorem t2p_tickRange (h : 887272 < (s.s rs1).natAbs) : FaultsWith (.t2p rd rs1) s .tickRange :=
  faultsWith_of_error (by rw [exec_t2p, getSqrtRatioAtTick, if_pos h, resultTo_error])

/-- On a tick T2P completes with its price, which fits in a register (R78, R85). -/
theorem t2p_completes (h0 : -887272 ≤ s.s rs1) (h1 : s.s rs1 ≤ 887272) : ∃ t, exec (.t2p rd rs1) s = .next t ∧
    t.u rd = sqrtRatioAt (s.s rs1) ∧ ChangesOnlyRegs [rd] s t := by
  refine completes_of_natCast ?_ ((sqrtRatioAt_bounds h0 h1).2.trans_lt (by decide))
  rw [exec_t2p, getSqrtRatioAtTick, if_neg (by omega)]

/-- The same, for the result alone, with the tick and its price named. -/
theorem t2p_result {n : Int} {p : Nat} (h : s.s rs1 = n) (h0 : -887272 ≤ n) (h1 : n ≤ 887272)
    (hp : sqrtRatioAt n = p) : ∃ t, exec (.t2p rd rs1) s = .next t ∧ t.u rd = p := by
  subst h
  obtain ⟨t, ht, hu, -⟩ := t2p_completes rd h0 h1
  exact ⟨t, ht, hu.trans hp⟩

theorem p2t_priceRange (h : s.u rs1 < minSqrtRatio ∨ maxSqrtRatio ≤ s.u rs1) :
    FaultsWith (.p2t rd rs1) s .priceRange :=
  faultsWith_of_error (by rw [exec_p2t, getTickAtSqrtRatio, if_pos h, resultTo_error])

/-- On a price from that of the tick `n` up to that of the next, P2T completes with `n` (R82, R83). -/
theorem p2t_completes {n : Int} (h0 : -887272 ≤ n) (h1 : n ≤ 887271) (hle : sqrtRatioAt n ≤ s.u rs1)
    (hlt : s.u rs1 < sqrtRatioAt (n + 1)) :
    ∃ t, exec (.p2t rd rs1) s = .next t ∧ t.s rd = n ∧ ChangesOnlyRegs [rd] s t := by
  obtain ⟨hmin, -⟩ := sqrtRatioAt_bounds h0 (by omega)
  obtain ⟨-, hmax⟩ := sqrtRatioAt_bounds (t := n + 1) (by omega) (by omega)
  refine ⟨s.setReg rd (enc n), ?_, ?_, changesOnlyRegs_setReg s rd _⟩
  · rw [exec_p2t, getTickAtSqrtRatio, if_neg (by omega), chooseTick_eq h0 h1 hle hlt, resultTo_ok, endCommand_ok]
  · rw [setReg_s_self, enc_toInt (by omega) (by omega)]

/-- The same, for the result alone and with the next tick named. -/
theorem p2t_result {n n' : Int} (h0 : -887272 ≤ n) (h1 : n ≤ 887271) (hn : n + 1 = n')
    (hle : sqrtRatioAt n ≤ s.u rs1) (hlt : s.u rs1 < sqrtRatioAt n') :
    ∃ t, exec (.p2t rd rs1) s = .next t ∧ t.s rd = n := by
  obtain ⟨t, ht, hs, -⟩ := p2t_completes rd h0 h1 hle (hn ▸ hlt)
  exact ⟨t, ht, hs⟩

end

/-! ## The statements -/

/-- Settles O42: the ratios are those of the climb, bit by bit. -/
theorem t2pClimbsTheLadder : Obligations.T2pClimbsTheLadder := by
  unfold Obligations.T2pClimbsTheLadder
  refine ⟨ladderAt, by decide, fun rd rs1 s => ⟨decodeOfEncode (.t2p rd rs1) rfl, t2p_tickRange rd, fun h => ?_⟩⟩
  obtain ⟨t, ht, hu, hframe⟩ := t2p_completes rd (s := s) (rs1 := rs1) (by omega) (by omega)
  refine ⟨fun k => climb (s.s rs1).natAbs (k + 1), tickRatio (s.s rs1), t, climb_one _, fun k _ => ?_, ?_, ht, ?_,
    hframe⟩
  · rw [← Nat.shiftRight_eq_div_pow]
    rfl
  · rw [tickRatio, ladderRatio_eq_climb]
  · rw [hu, sqrtRatioAt, toQ96_eq]

/-- Settles O43: the three values, evaluated. -/
theorem t2pReferenceValues : Obligations.T2pReferenceValues := by
  unfold Obligations.T2pReferenceValues
  obtain ⟨hzero, hmin, hmax⟩ := sqrtRatioAt_reference
  intro rd rs1 s
  exact ⟨fun h => t2p_result rd h (by decide) (by decide) hzero, fun h => t2p_result rd h (by decide) (by decide) hmin,
    fun h => t2p_result rd h (by decide) (by decide) hmax⟩

/-- Settles O44: `sqrtRatioAt_lt`, and the two bounds are the prices of the first and the last tick. -/
theorem t2pIsStrictlyIncreasing : Obligations.T2pIsStrictlyIncreasing := by
  unfold Obligations.T2pIsStrictlyIncreasing
  intro rd rs1 s s' h0 hlt h1
  obtain ⟨t, ht, hu, -⟩ := t2p_completes rd h0 (by omega)
  obtain ⟨t', ht', hu', -⟩ := t2p_completes rd (by omega) h1
  refine ⟨t, t', ht, ht', ?_, ?_, ?_⟩
  · rw [hu, hu']
    exact sqrtRatioAt_lt (by omega) (by omega) hlt
  · rw [hu]
    exact (sqrtRatioAt_bounds h0 (by omega)).1
  · rw [hu']
    exact (sqrtRatioAt_bounds (by omega) h1).2

/-- Settles O45: the mantissas, bits and logarithms are those of `logAfter`, and every price admitted has a tick. -/
theorem p2tComputesTheLogarithm : Obligations.P2tComputesTheLogarithm := by
  unfold Obligations.P2tComputesTheLogarithm
  refine fun rd rs1 s => ⟨decodeOfEncode (.p2t rd rs1) rfl, p2t_priceRange rd, fun h0 h1 => ?_⟩
  have hp : 0 < s.u rs1 := by omega
  obtain ⟨n, hn, hn', hle, hlt⟩ := exists_tick_of_price h0 h1
  obtain ⟨t, ht, hs, hframe⟩ := p2t_completes rd hn hn' hle hlt
  obtain ⟨hm, hm'⟩ := highestBit_price hp
  refine ⟨highestBit (s.u rs1 <<< 32), mantissa (s.u rs1), logBit (s.u rs1), logSum (s.u rs1), tickLow (s.u rs1),
    tickHigh (s.u rs1), t, hm, hm', ?start, logSum_zero _, fun k _ => ?squaring, ?low, ?high, ht, ?choice,
    hframe⟩
  case start => rw [mantissa_zero, normalise_eq, Nat.shiftLeft_eq]
  case squaring => exact ⟨by rw [logBit], logBit_le_one hp k, mantissa_succ _ k, logSum_succ _ k⟩
  case low => rw [tickLow, logPrice_eq, logConstant, lowAdjust]
  case high => rw [tickHigh, logPrice_eq, logConstant, highAdjust]
  case choice => rw [hs, ← chooseTick_eq hn hn' hle hlt, chooseTick]

/-- Settles O46: each of the four prices lies in the price interval of the tick named. -/
theorem p2tEdgeValues : Obligations.P2tEdgeValues := by
  unfold Obligations.P2tEdgeValues
  obtain ⟨hzero, hmin, hmax⟩ := sqrtRatioAt_reference
  rw [minSqrtRatio] at hmin
  rw [maxSqrtRatio] at hmax
  have hfirst := sqrtRatioAt_lt (t := -887272) (t' := -887271) (by decide) (by decide) (by decide)
  have hbelow := sqrtRatioAt_lt (t := -1) (t' := 0) (by decide) (by decide) (by decide)
  have habove := sqrtRatioAt_lt (t := 0) (t' := 1) (by decide) (by decide) (by decide)
  have hlast := sqrtRatioAt_lt (t := 887271) (t' := 887272) (by decide) (by decide) (by decide)
  intro rd rs1 s
  refine ⟨fun h => ?first, fun h => ?below, fun h => ?unit, fun h => ?last⟩
  case first => exact p2t_result rd (n := -887272) (n' := -887271) (by decide) (by decide) rfl (by omega) (by omega)
  case below => exact p2t_result rd (n := -1) (n' := 0) (by decide) (by decide) rfl (by omega) (by omega)
  case unit => exact p2t_result rd (n := 0) (n' := 1) (by decide) (by decide) rfl (by omega) (by omega)
  case last => exact p2t_result rd (n := 887271) (n' := 887272) (by decide) (by decide) rfl (by omega) (by omega)

/-- Settles O47: the candidates bracket the tick of the price and are neighbours at most. -/
theorem p2tStaysInTickRange : Obligations.P2tStaysInTickRange := by
  unfold Obligations.P2tStaysInTickRange
  intro rd rs1 s h0 h1
  obtain ⟨n, hn, hn', hle, hlt⟩ := exists_tick_of_price h0 h1
  obtain ⟨t, ht, hs, -⟩ := p2t_completes rd hn hn' hle hlt
  obtain ⟨hlo, hhi⟩ := tickLow_le_and_le_tickHigh hn hn' hle hlt
  have hnear := tickHigh_bounds (s.u rs1)
  exact ⟨by omega, t, ht, by omega, by omega⟩

/-- Settles O48: P2T's tick is the one whose price interval the price lies in, and prices rise with the tick. -/
theorem p2tGivesTheGreatestTick : Obligations.P2tGivesTheGreatestTick := by
  unfold Obligations.P2tGivesTheGreatestTick
  intro rd rs1 s h0 h1
  obtain ⟨n, hn, hn', hle, hlt⟩ := exists_tick_of_price h0 h1
  obtain ⟨t, ht, hs, -⟩ := p2t_completes rd hn hn' hle hlt
  refine ⟨t, ht, hs ▸ hle, fun k hk hk' => hlt.trans_le (sqrtRatioAt_le (by omega) (by omega) hk')⟩

/-- Settles O49: a tick's price begins its price interval, and that of the last tick is MAX_SQRT_RATIO. -/
theorem roundTripGivesBackTheTick : Obligations.RoundTripGivesBackTheTick := by
  unfold Obligations.RoundTripGivesBackTheTick
  obtain ⟨-, -, hmax⟩ := sqrtRatioAt_reference
  refine fun rd rd' rs1 s => ⟨fun h0 h1 => ?_, fun h => ?_⟩
  · obtain ⟨t, ht, hu, -⟩ := t2p_completes rd h0 (by omega)
    obtain ⟨u, hu', hs, -⟩ := p2t_completes rd' (s := t) (rs1 := rd) h0 h1 hu.ge
      (hu ▸ sqrtRatioAt_lt (by omega) (by omega) (by omega))
    exact ⟨t, u, ht, hu', hs⟩
  · obtain ⟨t, ht, hu⟩ := t2p_result rd h (by decide) (by decide) hmax
    exact ⟨t, ht, p2t_priceRange rd' (.inr hu.ge)⟩

end Sys2Proof.Machine

namespace Sys2Proof

/-! ## Words that name one destination twice (spec/30_encoding.md R50, R51) -/

/-- The row of an ill-formed term is found, and its word then refused for equal destinations (R51). -/
theorem decode_encode_of_not_wellFormed {i : Instr} (hw : i.wellFormed = false) :
    decode (encode i) = .error .equalDestinations := by
  rw [decode_eq_firstTest, encode, fieldsOf_wordOfFields]
  cases i with
  | bmpos rd rd2 rs1 => exact if_neg (Bool.eq_false_iff.mp hw)
  | bmnextGt rd rd2 rs1 rs2 => exact if_neg (Bool.eq_false_iff.mp hw)
  | bmnextLe rd rd2 rs1 rs2 => exact if_neg (Bool.eq_false_iff.mp hw)
  | _ => cases hw

theorem decode_encode_twoDestinations {i : Instr} {rd rd2 : Reg} (hw : i.wellFormed = (rd != rd2)) :
    decode (encode i) = if rd = rd2 then .error .equalDestinations else .ok i := by
  split
  case isTrue h => exact decode_encode_of_not_wellFormed (by simp [hw, h])
  case isFalse h => exact decodeOfEncode i (by simp [hw, h])

end Sys2Proof

namespace Sys2Proof.Machine

/-! ## How a command with two destinations ends (spec/10_state.md R14) -/

/-- Two different destinations both keep what is written to them. -/
theorem completes_of_setReg₂ {i : Instr} {s : State} {rd rd2 : Reg} {v v2 : Word} (hne : rd ≠ rd2)
    (h : exec i s = .next ((s.setReg rd v).setReg rd2 v2)) :
    ∃ t, exec i s = .next t ∧ t.reg rd = v ∧ t.reg rd2 = v2 ∧ ChangesOnlyRegs [rd, rd2] s t :=
  ⟨_, h, by simp [hne], by simp, changesOnlyRegs_setReg₂ s rd rd2 v v2⟩

/-- Word indices and ticks are far inside the signed range of a register, so they read back exactly. -/
theorem enc_toInt_of_abs_le {n : Int} (h : |n| ≤ 2 ^ 64) : (enc n).toInt = n := by
  obtain ⟨hlo, hhi⟩ := abs_le.mp h
  exact enc_toInt (le_trans (by decide) hlo) (hhi.trans_lt (by decide))

/-! ## Word and bit index of a compressed tick (R87, R89) -/

theorem exec_bmpos {rd rd2 : Reg} (rs1 : Reg) (s : State) (hne : rd ≠ rd2) : exec (.bmpos rd rd2 rs1) s =
    endCommand (.bmpos rd rd2 rs1) s (positionTo s rd rd2 (position (s.s rs1))) :=
  congrArg (endCommand _ s) (requireDistinct_ne hne _)

/-- Settles O50: the word and the bit index are floor quotient and remainder by 256, and both fit in a register. -/
theorem bmposSplitsTheTick : Obligations.BmposSplitsTheTick := by
  unfold Obligations.BmposSplitsTheTick
  intro rd rd2 rs1 s
  refine ⟨decode_encode_twoDestinations (i := .bmpos rd rd2 rs1) rfl, fun hne hout => faultsWith_of_error ?_,
    fun hne h0 h1 => ?_⟩
  · rw [exec_bmpos rs1 s hne, position_error hout, positionTo_error]
  · obtain ⟨t, ht, hw, hb, hframe⟩ := completes_of_setReg₂ (s := s) hne
      (by rw [exec_bmpos rs1 s hne, position_ok h0 h1, positionTo_ok, endCommand_ok])
    have hword : t.s rd = s.s rs1 / 256 :=
      (congrArg BitVec.toInt hw).trans (enc_toInt_of_abs_le (abs_le.mpr (by omega)))
    have hbit : t.u rd2 = (s.s rs1 % 256).toNat :=
      (congrArg BitVec.toNat hb).trans (enc_natCast_toNat (Nat.lt_trans (m := 256) (by omega) (by decide)))
    exact ⟨t, ht, by omega, by omega, hframe⟩

/-! ## Loading, storing and clearing bitmap words (R94 to R96) -/

section
variable (rd rs1 rs2 : Reg) (s : State)

theorem exec_bmld : exec (.bmld rd rs1) s = endCommand (.bmld rd rs1) s
    (if indexOutside (s.s rs1) then .error .bmIndexRange else .ok (s.setReg rd (s.wordAt (s.s rs1)))) := rfl

theorem exec_bmst : exec (.bmst rs1 rs2) s = endCommand (.bmst rs1 rs2) s
    (if indexOutside (s.s rs1) then .error .bmIndexRange
     else .ok (s.bmWrite (wordIndex (s.s rs1)) (s.reg rs2))) := rfl

theorem exec_bmclr : exec .bmclr s = .next s.bmClear := rfl

end

/-- The integer of a word index passes the index check (R94, R95). -/
theorem indexOutside_toInt (k : WordIndex) : indexOutside k.toInt = false := by
  have hlo := k.le_toInt
  have hhi := k.toInt_lt
  rw [← Bool.not_eq_true, indexOutside_iff]
  omega

theorem exec_bmld_index {rs1 : Reg} {s : State} {k : WordIndex} (rd : Reg) (hk : k.toInt = s.s rs1) :
    exec (.bmld rd rs1) s = .next (s.setReg rd (s.bmRead k)) := by
  simp [exec_bmld, ← hk, indexOutside_toInt, State.wordAt, wordIndex_of_toInt]

theorem exec_bmst_index {rs1 : Reg} {s : State} {k : WordIndex} (rs2 : Reg) (hk : k.toInt = s.s rs1) :
    exec (.bmst rs1 rs2) s = .next (s.bmWrite k (s.reg rs2)) := by
  simp [exec_bmst, ← hk, indexOutside_toInt, wordIndex_of_toInt]

/-- A word written reads back, in a canonical bitmap. -/
theorem bmWrite_bmRead_self {s : State} (h : BitmapCanonical s) (w : WordIndex) (v : Word) :
    (s.bmWrite w v).bmRead w = v := by
  rw [bmWrite_bmRead h, if_pos rfl]

/-- Settles O56: `indexOutside` is the condition of the fault, and an index inside names its own word. -/
theorem bmldLoadsTheWord : Obligations.BmldLoadsTheWord := by
  unfold Obligations.BmldLoadsTheWord
  refine fun rd rs1 s => ⟨decodeOfEncode (.bmld rd rs1) rfl, fun hout => faultsWith_of_error ?_,
    fun k hk => ⟨_, exec_bmld_index rd hk, setReg_reg_self s rd _, changesOnlyRegs_setReg s rd _⟩⟩
  rw [exec_bmld, if_pos ((indexOutside_iff _).mpr hout)]

/-- Settles O57: as O56, and a word written reads back. -/
theorem bmstStoresTheWord : Obligations.BmstStoresTheWord := by
  unfold Obligations.BmstStoresTheWord
  refine fun rs1 rs2 s hcan => ⟨decodeOfEncode (.bmst rs1 rs2) rfl, fun hout => faultsWith_of_error ?_,
    fun k hk => ⟨_, exec_bmst_index rs2 hk, bmWrite_bmRead_self hcan k _, changesOnlyWord_bmWrite s k _⟩⟩
  rw [exec_bmst, if_pos ((indexOutside_iff _).mpr hout)]

/-- Settles O58: the cleared memory lists no word. -/
theorem bmclrEmptiesTheBitmap : Obligations.BmclrEmptiesTheBitmap := by
  unfold Obligations.BmclrEmptiesTheBitmap
  exact ⟨decodeOfEncode .bmclr rfl, fun s => ⟨_, exec_bmclr s, bmClear_bmRead s, fun r _ => bmClear_reg s r,
    ⟨rfl, rfl, rfl⟩, ⟨rfl, rfl⟩⟩⟩

/-! ## Flipping one bit (R90) -/

/-- A tick that BMFLIP does not refuse: the spacing, the alignment and the compressed tick pass its checks (R90). -/
def Flippable (a sp : Int) : Prop :=
  1 ≤ sp ∧ sp ≤ 887272 ∧ a % sp = 0 ∧ -887272 ≤ a / sp ∧ a / sp ≤ 887272

/-- The state in which the bit of the compressed tick `c` is toggled: what BMFLIP does (R87, R90). -/
def State.toggleTick (s : State) (c : Int) : State :=
  s.bmWrite (wordIndex (c / 256)) (s.bmRead (wordIndex (c / 256)) ^^^ (1 : Word) <<< (c % 256).toNat)

@[simp] theorem toggleTick_s (s : State) (c : Int) (r : Reg) : (s.toggleTick c).s r = s.s r := rfl

theorem spacingOutside_false {sp : Int} (h0 : 1 ≤ sp) (h1 : sp ≤ 887272) : spacingOutside sp = false := by
  rw [← Bool.not_eq_true, spacingOutside_iff]
  omega

section
variable {s : State} {a sp : Int}

theorem flipTick_spacing (h : sp < 1 ∨ 887272 < sp) : flipTick s a sp = .error .spacingRange := by
  rw [flipTick, if_pos ((spacingOutside_iff sp).mpr h)]

theorem flipTick_misaligned (h0 : 1 ≤ sp) (h1 : sp ≤ 887272) (ha : a % sp ≠ 0) :
    flipTick s a sp = .error .tickMisaligned := by
  simp [flipTick, spacingOutside_false h0 h1, ha]

theorem flipTick_range (h0 : 1 ≤ sp) (h1 : sp ≤ 887272) (ha : a % sp = 0)
    (hc : a / sp < -887272 ∨ 887272 < a / sp) : flipTick s a sp = .error .tickRange := by
  simp [flipTick, spacingOutside_false h0 h1, ha, position_error hc]

theorem flipTick_ok (h : Flippable a sp) : flipTick s a sp = .ok (s.toggleTick (a / sp)) := by
  obtain ⟨h0, h1, ha, hlo, hhi⟩ := h
  simp [flipTick, spacingOutside_false h0 h1, ha, position_ok hlo hhi, State.toggleTick, State.wordAt]

theorem flippable_of_flipTick {t : State} (h : flipTick s a sp = .ok t) : Flippable a sp := by
  by_cases hsp : sp < 1 ∨ 887272 < sp
  · simp [flipTick_spacing hsp] at h
  · obtain ⟨h0, h1⟩ : 1 ≤ sp ∧ sp ≤ 887272 := by omega
    by_cases ha : a % sp = 0
    · by_cases hc : a / sp < -887272 ∨ 887272 < a / sp
      · simp [flipTick_range h0 h1 ha hc] at h
      · exact ⟨h0, h1, ha, by omega, by omega⟩
    · simp [flipTick_misaligned h0 h1 ha] at h

end

theorem exec_bmflip (rs1 rs2 : Reg) (s : State) : exec (.bmflip rs1 rs2) s =
    endCommand (.bmflip rs1 rs2) s (flipTick s (s.s rs1) (s.s rs2)) := rfl

/-- A command that ends with no fault latched has written its effect. -/
theorem endCommand_ok_of_no_fault {i : Instr} {s t : State} {r : Except Cause State}
    (h : endCommand i s r = .next t) (hf : t.fault = false) : r = .ok t := by
  obtain hok | ⟨c, -, rfl⟩ := endCommand_cases h
  · exact hok
  · cases hf

section
variable {s : State} (h : BitmapCanonical s)
include h

/-- Of the word that is written exactly one bit changes (R90). -/
theorem toggleTick_getLsbD (c : Int) {b : Nat} (hb : b < 256) :
    ((s.toggleTick c).bmRead (wordIndex (c / 256))).getLsbD b =
      ((s.bmRead (wordIndex (c / 256))).getLsbD b ^^ decide ((b : Int) = c % 256)) := by
  have hone : ((1 : Word) <<< (c % 256).toNat).getLsbD b = decide ((b : Int) = c % 256) := by
    rw [show (1 : Word) <<< (c % 256).toNat = BitVec.twoPow 256 _ from (BitVec.twoPow_eq 256 _).symm,
      BitVec.getLsbD_twoPow, decide_eq_true (by omega), Bool.true_and, decide_eq_decide]
    omega
  rw [State.toggleTick, bmWrite_bmRead_self h, BitVec.getLsbD_xor, hone]

/-- Writing back the word that stood there undoes a write, as data, in a canonical bitmap (log 3). -/
theorem bmWrite_bmWrite_bmRead (w : WordIndex) (v : Word) : (s.bmWrite w v).bmWrite w (s.bmRead w) = s := by
  have hbm : ((s.bmWrite w v).bmWrite w (s.bmRead w)).bm = s.bm := by
    have hw := bmWrite_wf h w v
    refine eq_of_read_eq (bmWrite_wf hw w _) h fun k => ?_
    by_cases hk : k = w.toNat
    · subst hk
      exact bmWrite_bmRead_self hw w _
    · rw [bmWrite_bm, read_write_ne _ hk, bmWrite_bm, read_write_ne _ hk]
  exact congrArg (fun m => { s with bm := m }) hbm

theorem toggleTick_toggleTick (c : Int) : (s.toggleTick c).toggleTick c = s := by
  have hback : (s.toggleTick c).bmRead (wordIndex (c / 256)) ^^^ (1 : Word) <<< (c % 256).toNat =
      s.bmRead (wordIndex (c / 256)) := by
    rw [State.toggleTick, bmWrite_bmRead_self h, BitVec.xor_assoc, BitVec.xor_self, BitVec.xor_zero]
  rw [State.toggleTick, hback]
  exact bmWrite_bmWrite_bmRead h _ _

end

section
variable {rs1 rs2 : Reg} {s : State}

theorem exec_bmflip_completes (h : Flippable (s.s rs1) (s.s rs2)) :
    exec (.bmflip rs1 rs2) s = .next (s.toggleTick (s.s rs1 / s.s rs2)) := by
  rw [exec_bmflip, flipTick_ok h, endCommand_ok]

theorem flippable_of_no_fault {t : State} (h : exec (.bmflip rs1 rs2) s = .next t) (hf : t.fault = false) :
    Flippable (s.s rs1) (s.s rs2) :=
  flippable_of_flipTick (endCommand_ok_of_no_fault h hf)

end

/-- Settles O51: the checks of `flipTick` in their order, and `toggleTick_getLsbD` for the one bit that changes. -/
theorem bmflipTogglesOneBit : Obligations.BmflipTogglesOneBit := by
  unfold Obligations.BmflipTogglesOneBit
  intro rs1 rs2 s hcan
  refine ⟨decodeOfEncode (.bmflip rs1 rs2) rfl, fun hsp => faultsWith_of_error ?_,
    fun h0 h1 ha => faultsWith_of_error ?_, fun h0 h1 ha hc => faultsWith_of_error ?_,
    fun h0 h1 ha hlo hhi => ⟨_, exec_bmflip_completes ⟨h0, h1, ha, hlo, hhi⟩,
      fun _ hb => toggleTick_getLsbD hcan _ hb, changesOnlyWord_bmWrite s _ _⟩⟩
  · rw [exec_bmflip, flipTick_spacing hsp]
  · rw [exec_bmflip, flipTick_misaligned h0 h1 ha]
  · rw [exec_bmflip, flipTick_range h0 h1 ha hc]

/-- Settles O52: the operands of the second flip are those of the first, so it toggles the same bit back. -/
theorem flipTwiceRestores : Obligations.FlipTwiceRestores := by
  unfold Obligations.FlipTwiceRestores
  intro rs1 rs2 s t u hcan _ ht hf hu
  have hflip := flippable_of_no_fault ht hf
  obtain rfl := Host.Outcome.next.inj ((exec_bmflip_completes hflip).symm.trans ht)
  have hagain := exec_bmflip_completes (s := s.toggleTick (s.s rs1 / s.s rs2)) hflip
  obtain rfl := Host.Outcome.next.inj (hagain.symm.trans hu)
  exact toggleTick_toggleTick hcan _

/-! ## The search of BMNEXT in one word (R91, R92) -/

/-- The lowest set bit is set, and no bit below it is. -/
theorem lowestBit_testBit {v : Nat} (hv : v ≠ 0) (hmod : v < modulus) :
    v.testBit (lowestBit v) = true ∧ ∀ i < lowestBit v, v.testBit i = false := by
  obtain ⟨⟨k, hk⟩, hnot⟩ := lowestBit_spec hv hmod
  generalize lowestBit v = j at hk hnot
  subst hk
  have hodd : ¬ 2 ∣ k := fun h => hnot (pow_succ 2 j ▸ Nat.mul_dvd_mul_left (2 ^ j) h)
  simp only [Nat.testBit_two_pow_mul]
  exact ⟨by simpa using hodd, fun i hi => by simp [hi]⟩

section
variable (word : Word) (c : Int) (b : Nat) (sp : Int)

/-- A search down stops at the highest set bit at or below bit `b`, or at bit 0 if there is none (R91). -/
theorem searchDown_cases :
    (∃ j ≤ b, word.getLsbD j = true ∧ (∀ i, j < i → i ≤ b → word.getLsbD i = false) ∧
      searchDown word c b sp = ⟨(c - (b - j)) * sp, true⟩) ∨
    ((∀ i ≤ b, word.getLsbD i = false) ∧ searchDown word c b sp = ⟨(c - b) * sp, false⟩) := by
  have hbit : ∀ i, (word.toNat &&& (2 ^ (b + 1) - 1)).testBit i = (word.getLsbD i && decide (i < b + 1)) := fun i => by
    rw [Nat.testBit_and, Nat.testBit_two_pow_sub_one, BitVec.testBit_toNat]
  unfold searchDown
  generalize word.toNat &&& (2 ^ (b + 1) - 1) = masked at hbit
  by_cases hm : masked = 0
  · refine .inr ⟨fun i hi => ?_, by simp [hm]⟩
    simpa [hm, Nat.lt_succ_of_le hi] using (hbit i).symm
  · have htop : word.getLsbD (highestBit masked) = true ∧ highestBit masked ≤ b := by
      simpa [Nat.lt_succ_iff] using (hbit (highestBit masked)).symm.trans (Nat.testBit_log2 hm)
    refine .inl ⟨highestBit masked, htop.2, htop.1, fun i hlt hi => ?_, by simp [hm]⟩
    have habove : masked.testBit i = false :=
      Nat.testBit_lt_two_pow ((highestBit_spec hm).2.trans_le (Nat.pow_le_pow_right (by decide) hlt))
    simpa [habove, Nat.lt_succ_of_le hi] using (hbit i).symm

/-- A search up stops at the lowest set bit at or above bit `b`, or at bit 255 if there is none (R92). -/
theorem searchUp_cases (hb : b < 256) :
    (∃ j, b ≤ j ∧ j < 256 ∧ word.getLsbD j = true ∧ (∀ i, b ≤ i → i < j → word.getLsbD i = false) ∧
      searchUp word c b sp = ⟨(c + (j - b)) * sp, true⟩) ∨
    ((∀ i, b ≤ i → i < 256 → word.getLsbD i = false) ∧ searchUp word c b sp = ⟨(c + (255 - b)) * sp, false⟩) := by
  have hbit : ∀ i, (word.toNat &&& ((2 ^ 256 - 1) - (2 ^ b - 1))).testBit i =
      (word.getLsbD i && (decide (i < 256) && !decide (i < b))) := fun i => by
    rw [Nat.testBit_and, Nat.sub_sub, Nat.add_comm 1, Nat.testBit_two_pow_sub_succ
      ((Nat.sub_le _ _).trans_lt (Nat.pow_lt_pow_right (by decide) hb)), Nat.testBit_two_pow_sub_one,
      BitVec.testBit_toNat]
  have hmod : word.toNat &&& ((2 ^ 256 - 1) - (2 ^ b - 1)) < modulus := Nat.and_le_left.trans_lt word.isLt
  unfold searchUp
  generalize word.toNat &&& ((2 ^ 256 - 1) - (2 ^ b - 1)) = masked at hbit hmod
  by_cases hm : masked = 0
  · refine .inr ⟨fun i hi hi' => ?_, by simp [hm]⟩
    simpa [hm, hi', Nat.not_lt.mpr hi] using (hbit i).symm
  · obtain ⟨hset, hbelow⟩ := lowestBit_testBit hm hmod
    obtain ⟨hj, hlt, hle⟩ : word.getLsbD (lowestBit masked) = true ∧ lowestBit masked < 256 ∧ b ≤ lowestBit masked := by
      simpa using (hbit (lowestBit masked)).symm.trans hset
    refine .inl ⟨lowestBit masked, hle, hlt, hj, fun i hi hij => ?_, by simp [hm]⟩
    simpa [hbelow i hij, hij.trans hlt, Nat.not_lt.mpr hi] using (hbit i).symm

variable {word b}

theorem searchDown_hit {j : Nat} (hj : j ≤ b) (hset : word.getLsbD j = true)
    (hclear : ∀ i, j < i → i ≤ b → word.getLsbD i = false) :
    searchDown word c b sp = ⟨(c - (b - j)) * sp, true⟩ := by
  obtain ⟨k, hk, hkset, hkclear, hfound⟩ | ⟨hnone, -⟩ := searchDown_cases word c b sp
  · have hkj : ¬ k < j := fun h => by simp [hkclear j h hj] at hset
    have hjk : ¬ j < k := fun h => by simp [hclear k h hk] at hkset
    obtain rfl : k = j := by omega
    exact hfound
  · simp [hnone j hj] at hset

theorem searchDown_miss (hclear : ∀ i ≤ b, word.getLsbD i = false) :
    searchDown word c b sp = ⟨(c - b) * sp, false⟩ := by
  obtain ⟨k, hk, hkset, -⟩ | ⟨-, hfound⟩ := searchDown_cases word c b sp
  · simp [hclear k hk] at hkset
  · exact hfound

/-- A search down answers a compressed tick of the same word, at or below the one it started from (R93). -/
theorem searchDown_within (word : Word) (b : Nat) :
    ∃ n init, searchDown word c b sp = ⟨n * sp, init⟩ ∧ c - b ≤ n ∧ n ≤ c := by
  obtain ⟨k, hk, -, -, hfound⟩ | ⟨-, hfound⟩ := searchDown_cases word c b sp
  · exact ⟨_, _, hfound, by omega, by omega⟩
  · exact ⟨_, _, hfound, by omega, by omega⟩

theorem searchUp_hit {j : Nat} (hj : b ≤ j) (hj' : j < 256) (hset : word.getLsbD j = true)
    (hclear : ∀ i, b ≤ i → i < j → word.getLsbD i = false) :
    searchUp word c b sp = ⟨(c + (j - b)) * sp, true⟩ := by
  obtain ⟨k, hk, hk', hkset, hkclear, hfound⟩ | ⟨hnone, -⟩ := searchUp_cases word c b sp (hj.trans_lt hj')
  · have hjk : ¬ j < k := fun h => by simp [hkclear j hj h] at hset
    have hkj : ¬ k < j := fun h => by simp [hclear k hk h] at hkset
    obtain rfl : k = j := by omega
    exact hfound
  · simp [hnone j hj hj'] at hset

theorem searchUp_miss (hb : b < 256) (hclear : ∀ i, b ≤ i → i < 256 → word.getLsbD i = false) :
    searchUp word c b sp = ⟨(c + (255 - b)) * sp, false⟩ := by
  obtain ⟨k, hk, hk', hkset, -⟩ | ⟨-, hfound⟩ := searchUp_cases word c b sp hb
  · simp [hclear k hk hk'] at hkset
  · exact hfound

/-- A search up answers a compressed tick of the same word, at or above the one it started from (R93). -/
theorem searchUp_within (word : Word) (hb : b < 256) :
    ∃ n init, searchUp word c b sp = ⟨n * sp, init⟩ ∧ c ≤ n ∧ n ≤ c + (255 - b) := by
  obtain ⟨k, hk, hk', -, -, hfound⟩ | ⟨-, hfound⟩ := searchUp_cases word c b sp hb
  · exact ⟨_, _, hfound, by omega, by omega⟩
  · exact ⟨_, _, hfound, by omega, by omega⟩

end

/-! ## BMNEXT (R91 to R93): one way to end for both directions -/

/-- The product of a compressed tick and a spacing reads back exactly: a next tick is not clamped, and always fits. -/
theorem enc_tick_toInt {n sp : Int} (hlo : -2 ^ 20 ≤ n) (hhi : n ≤ 2 ^ 20) (h0 : 1 ≤ sp) (h1 : sp ≤ 887272) :
    (enc (n * sp)).toInt = n * sp := by
  refine enc_toInt_of_abs_le ?_
  calc |n * sp| = |n| * |sp| := abs_mul n sp
    _ ≤ 2 ^ 20 * 2 ^ 20 :=
      mul_le_mul (abs_le.mpr ⟨hlo, hhi⟩) (abs_le.mpr (by omega)) (abs_nonneg sp) (by decide)
    _ ≤ 2 ^ 64 := by decide

/-- The search from the compressed tick `c`, in the direction `search`: SPACING_RANGE first, then TICK_RANGE of `c`. -/
def searchFrom (search : Word → Int → Nat → Int → NextTick) (s : State) (c sp : Int) : Except Cause NextTick :=
  if spacingOutside sp then .error .spacingRange
  else
    match position c with
    | .error cause => .error cause
    | .ok (w, b) => .ok (search (s.wordAt w) c b sp)

theorem searchFrom_ok (search : Word → Int → Nat → Int → NextTick) (s : State) {c sp : Int} (h0 : 1 ≤ sp)
    (h1 : sp ≤ 887272) (hlo : -887272 ≤ c) (hhi : c ≤ 887272) :
    searchFrom search s c sp = .ok (search (s.bmRead (wordIndex (c / 256))) c (c % 256).toNat sp) := by
  simp [searchFrom, spacingOutside_false h0 h1, position_ok hlo hhi, State.wordAt]

theorem nextTickDown_eq (s : State) (a sp : Int) : nextTickDown s a sp = searchFrom searchDown s (a / sp) sp := rfl

theorem nextTickUp_eq (s : State) (a sp : Int) : nextTickUp s a sp = searchFrom searchUp s (a / sp + 1) sp := rfl

section
variable {rd rd2 : Reg} (hne : rd ≠ rd2) (rs1 rs2 : Reg) (s : State)
include hne

theorem exec_bmnextLe : exec (.bmnextLe rd rd2 rs1 rs2) s = endCommand (.bmnextLe rd rd2 rs1 rs2) s
    (nextTickTo s rd rd2 (searchFrom searchDown s (s.s rs1 / s.s rs2) (s.s rs2))) := by
  rw [← nextTickDown_eq]
  exact congrArg (endCommand _ s) (requireDistinct_ne hne _)

theorem exec_bmnextGt : exec (.bmnextGt rd rd2 rs1 rs2) s = endCommand (.bmnextGt rd rd2 rs1 rs2) s
    (nextTickTo s rd rd2 (searchFrom searchUp s (s.s rs1 / s.s rs2 + 1) (s.s rs2))) := by
  rw [← nextTickUp_eq]
  exact congrArg (endCommand _ s) (requireDistinct_ne hne _)

end

section
variable {i : Instr} {s : State} {rd rd2 : Reg} {search : Word → Int → Nat → Int → NextTick} {c sp : Int}
  (h : exec i s = endCommand i s (nextTickTo s rd rd2 (searchFrom search s c sp)))
include h

theorem search_spacingRange (hsp : sp < 1 ∨ 887272 < sp) : FaultsWith i s .spacingRange := by
  rw [searchFrom, if_pos ((spacingOutside_iff sp).mpr hsp)] at h
  exact faultsWith_of_error h

theorem search_tickRange (h0 : 1 ≤ sp) (h1 : sp ≤ 887272) (hc : c < -887272 ∨ 887272 < c) :
    FaultsWith i s .tickRange := by
  rw [searchFrom, spacingOutside_false h0 h1, position_error hc] at h
  exact faultsWith_of_error h

variable {n : Int} {init : Bool} (hne : rd ≠ rd2) (h0 : 1 ≤ sp) (h1 : sp ≤ 887272)
  (hlo : -887272 ≤ c) (hhi : c ≤ 887272)
  (hfound : search (s.bmRead (wordIndex (c / 256))) c (c % 256).toNat sp = ⟨n * sp, init⟩)
include hne h0 h1 hlo hhi hfound

/-- The two registers hold the next tick and the flag the search has found. -/
theorem search_writes : ∃ t, exec i s = .next t ∧ t.reg rd = enc (n * sp) ∧ t.reg rd2 = encBool init ∧
    ChangesOnlyRegs [rd, rd2] s t := by
  rw [searchFrom_ok _ _ h0 h1 hlo hhi, hfound] at h
  exact completes_of_setReg₂ hne h

variable (hn : -2 ^ 20 ≤ n) (hn' : n ≤ 2 ^ 20)
include hn hn'

theorem search_completes :
    ∃ t, exec i s = .next t ∧ t.s rd = n * sp ∧ t.u rd2 = init.toNat ∧ ChangesOnlyRegs [rd, rd2] s t := by
  obtain ⟨t, ht, hnext, hinit, hframe⟩ := search_writes h hne h0 h1 hlo hhi hfound
  exact ⟨t, ht, (congrArg BitVec.toInt hnext).trans (enc_tick_toInt hn hn' h0 h1),
    (congrArg BitVec.toNat hinit).trans (by cases init <;> rfl), hframe⟩

/-- The same search from a state with the same inspected word gives the same two results (R93). -/
theorem search_agrees {s' : State} (h' : exec i s' = endCommand i s' (nextTickTo s' rd rd2 (searchFrom search s' c sp)))
    (hword : s.bmRead (wordIndex (c / 256)) = s'.bmRead (wordIndex (c / 256))) :
    ∃ t t', exec i s = .next t ∧ exec i s' = .next t' ∧ t.reg rd = t'.reg rd ∧ t.reg rd2 = t'.reg rd2 ∧
      t.s rd = n * sp := by
  obtain ⟨t, ht, hnext, hinit, -⟩ := search_writes h hne h0 h1 hlo hhi hfound
  obtain ⟨t', ht', hnext', hinit', -⟩ := search_writes h' hne h0 h1 hlo hhi (hword ▸ hfound)
  exact ⟨t, t', ht, ht', hnext.trans hnext'.symm, hinit.trans hinit'.symm,
    (congrArg BitVec.toInt hnext).trans (enc_tick_toInt hn hn' h0 h1)⟩

end

/-- Settles O53: BMNEXT.LE is the search down from the compressed tick, which hits or misses. -/
theorem bmnextLeSearchesDown : Obligations.BmnextLeSearchesDown := by
  unfold Obligations.BmnextLeSearchesDown
  rintro rd rd2 rs1 rs2 s c sp b word rfl rfl hb rfl
  obtain rfl : b = (s.s rs1 / s.s rs2 % 256).toNat := by omega
  have h := fun hne : rd ≠ rd2 => exec_bmnextLe hne rs1 rs2 s
  refine ⟨decode_encode_twoDestinations (i := .bmnextLe rd rd2 rs1 rs2) rfl, fun hne => search_spacingRange (h hne),
    fun hne => search_tickRange (h hne), fun hne h0 h1 hlo hhi => ⟨fun j hj hset hclear => ?_, fun hclear => ?_⟩⟩
  · exact search_completes (h hne) hne h0 h1 hlo hhi (searchDown_hit _ _ hj hset hclear) (by omega) (by omega)
  · exact search_completes (h hne) hne h0 h1 hlo hhi (searchDown_miss _ _ hclear) (by omega) (by omega)

/-- Settles O54: BMNEXT.GT is the search up from one compressed tick above, which hits or misses. -/
theorem bmnextGtSearchesUp : Obligations.BmnextGtSearchesUp := by
  unfold Obligations.BmnextGtSearchesUp
  rintro rd rd2 rs1 rs2 s c sp b word rfl rfl hb rfl
  obtain rfl : b = ((s.s rs1 / s.s rs2 + 1) % 256).toNat := by omega
  have h := fun hne : rd ≠ rd2 => exec_bmnextGt hne rs1 rs2 s
  refine ⟨decode_encode_twoDestinations (i := .bmnextGt rd rd2 rs1 rs2) rfl, fun hne => search_spacingRange (h hne),
    fun hne => search_tickRange (h hne), fun hne h0 h1 hlo hhi => ⟨fun j hj hj' hset hclear => ?_, fun hclear => ?_⟩⟩
  · exact search_completes (h hne) hne h0 h1 hlo hhi (searchUp_hit _ _ hj hj' hset hclear) (by omega) (by omega)
  · exact search_completes (h hne) hne h0 h1 hlo hhi (searchUp_miss _ _ (by omega) hclear) (by omega) (by omega)

/-- Settles O55: from both states the search reads the same word from the same bit, and it ends inside that word. -/
theorem bmnextInspectsOneWord : Obligations.BmnextInspectsOneWord := by
  unfold Obligations.BmnextInspectsOneWord
  rintro rd rd2 rs1 rs2 s s' c sp hne rfl rfl hreg1 hreg2 h0 h1
  have ha : s'.s rs1 = s.s rs1 := congrArg BitVec.toInt hreg1.symm
  have hsp : s'.s rs2 = s.s rs2 := congrArg BitVec.toInt hreg2.symm
  refine ⟨fun hlo hhi hword => ?_, fun hlo hhi hword => ?_⟩
  · have h' := exec_bmnextLe hne rs1 rs2 s'
    rw [ha, hsp] at h'
    obtain ⟨n, init, hfound, hn, hn'⟩ := searchDown_within _ _ _ _
    obtain ⟨t, t', ht, ht', hrd, hrd2, hs⟩ := search_agrees (exec_bmnextLe hne rs1 rs2 s) hne h0 h1 hlo hhi hfound
      (by omega) (by omega) h' hword
    exact ⟨t, t', n, ht, ht', hrd, hrd2, hs, by omega, by omega⟩
  · have h' := exec_bmnextGt hne rs1 rs2 s'
    rw [ha, hsp] at h'
    obtain ⟨n, init, hfound, hn, hn'⟩ := searchUp_within (s.s rs1 / s.s rs2 + 1) (s.s rs2)
      (s.bmRead (wordIndex ((s.s rs1 / s.s rs2 + 1) / 256))) (b := ((s.s rs1 / s.s rs2 + 1) % 256).toNat) (by omega)
    obtain ⟨t, t', ht, ht', hrd, hrd2, hs⟩ := search_agrees (exec_bmnextGt hne rs1 rs2 s) hne h0 h1 hlo hhi hfound
      (by omega) (by omega) h' hword
    exact ⟨t, t', n, ht, ht', hrd, hrd2, hs, by omega, by omega⟩

/-- Settles O60: the flip has set the tick's own bit, so the search hits at once, and an aligned tick is its compressed
tick times the spacing. -/
theorem flipIsSeenBySearch : Obligations.FlipIsSeenBySearch := by
  unfold Obligations.FlipIsSeenBySearch
  intro rd rd2 rs1 rs2 s hcan hne h0 h1 ha hlo hhi hclear
  have hset := toggleTick_getLsbD hcan (s.s rs1 / s.s rs2) (b := (s.s rs1 / s.s rs2 % 256).toNat) (by omega)
  rw [hclear, Bool.false_xor, decide_eq_true (by omega)] at hset
  have h := exec_bmnextLe hne rs1 rs2 (s.toggleTick (s.s rs1 / s.s rs2))
  rw [toggleTick_s, toggleTick_s] at h
  obtain ⟨u, hu, hnext, hinit, -⟩ := search_completes h hne h0 h1 hlo hhi
    (searchDown_hit _ _ le_rfl hset fun _ hi hi' => absurd hi' hi.not_ge) (by omega) (by omega)
  rw [sub_self, sub_zero, Int.ediv_mul_cancel_of_emod_eq_zero ha] at hnext
  exact ⟨_, u, exec_bmflip_completes ⟨h0, h1, ha, hlo, hhi⟩, hu, hnext, hinit⟩

end Sys2Proof.Machine

namespace Sys2Proof.Machine

/-! ## Fault entry (spec/60_exceptions.md R101, R103, R106) -/

/-- A well-formed command that ends with FAULT set, begun with it clear, has done nothing but take one of its causes. -/
theorem exec_raisesFault {i : Instr} {s t : State} (hw : i.wellFormed = true) (hs : s.fault = false)
    (h : exec i s = .next t) (ht : t.fault = true) : ∃ cause ∈ causesOf i, t = s.raiseFault cause (encode i) := by
  obtain ⟨a, ha, rfl⟩ := exec_action h
  obtain ⟨cause, rfl⟩ | ⟨hf, -, -⟩ := a.applyTo_latch i s
  · exact ⟨cause, ha hw, rfl⟩
  · simp [hf, hs] at ht

/-- The code 0 of FCAUSE is no command's cause (R100, R101). -/
theorem noFault_notMem_causesOf (i : Instr) : Cause.noFault ∉ causesOf i := by
  cases i <;> simp [causesOf]

/-- Settles O10: the one way a command sets FAULT is by a cause it is allowed. -/
theorem commandsRaiseOnlyTheirCauses : Obligations.CommandsRaiseOnlyTheirCauses := by
  unfold Obligations.CommandsRaiseOnlyTheirCauses
  intro i s t hw hs h ht
  obtain ⟨cause, hcause, rfl⟩ := exec_raisesFault hw hs h ht
  exact hcause

/-- Settles O9: the word is no command and takes ILLEGAL_CMD, or it is the encoding of a command that takes one of its
own causes; raising a fault writes the latch alone. -/
theorem faultEntryRecordsAndWritesNothing : Obligations.FaultEntryRecordsAndWritesNothing := by
  unfold Obligations.FaultEntryRecordsAndWritesNothing
  intro s t c rest hp hs h ht
  rw [step_transact hp, transact_cmd] at h
  obtain ⟨hf, -⟩ | ⟨-, ⟨e, he⟩, hc⟩ | ⟨hf, i, hi, hc⟩ :=
    deliverCommand_cases (({ s with pending := rest } : State).answer .ok) c
  · simp [hs] at hf
  · rw [hc] at h
    cases h
    rw [he]
    exact ⟨rfl, nofun, rfl, rfl, rfl, rfl, rfl⟩
  · obtain ⟨hcmd, hw⟩ := encode_of_decode hi
    obtain ⟨cause, hcause, rfl⟩ := exec_raisesFault hw hf (hc.symm.trans h) ht
    rw [hi]
    exact ⟨hcmd, ne_of_mem_of_not_mem hcause (noFault_notMem_causesOf i), hcause, rfl, rfl, rfl, rfl⟩

/-- Settles O8: with FAULT set the word is not looked at, and the answered state is the next one. -/
theorem latchedFaultDiscardsCommands : Obligations.LatchedFaultDiscardsCommands := by
  unfold Obligations.LatchedFaultDiscardsCommands
  intro s c rest hp hs
  obtain ⟨-, h⟩ | ⟨hf, -⟩ | ⟨hf, -⟩ := deliverCommand_cases (({ s with pending := rest } : State).answer .ok) c
  · exact step_answered hp ((transact_cmd _ c).trans h)
  · simp [hs] at hf
  · simp [hs] at hf

end Sys2Proof.Machine

namespace Sys2Proof.Machine

/-! ## A store is seen by the next load (spec/70_reset_and_hazards.md R119, spec/20_memory.md R41) -/

theorem bmWrite_s (s : State) (w : WordIndex) (v : Word) (r : Reg) : (s.bmWrite w v).s r = s.s r :=
  congrArg BitVec.toInt (bmWrite_reg s w v r)

/-- Settles O59: the store leaves the index register, so the load reads the very word just written. -/
theorem storeIsSeenByLoad : Obligations.StoreIsSeenByLoad := by
  unfold Obligations.StoreIsSeenByLoad
  intro rd rs1 rs2 s hcan hlo hhi
  have hk : (wordIndex (s.s rs1)).toInt = s.s rs1 := wordIndex_toInt hlo hhi
  refine ⟨_, _, exec_bmst_index rs2 hk, exec_bmld_index rd (hk.trans (bmWrite_s s _ _ rs1).symm), ?_⟩
  rw [setReg_reg_self, bmWrite_bmRead_self hcan]

end Sys2Proof.Machine
